-- ==== Sys2Proof/Word.lean ====
section
/-! DEFINITION. Word types of CORE: the widths of spec/00_scope.md rule R8 and spec/10_state.md rules R21, R26, R27. -/

namespace Sys2Proof

/-- An element of a value buffer, and a byte of the output sink: 8 bits unsigned (R21, R31). -/
abbrev Byte := BitVec 8

/-- A stored PCM sample: 32 bits, two's complement (R26). -/
abbrev Sample := BitVec 32

/-- A stored wavetable sample: 16 bits, two's complement (R27). -/
abbrev Sample16 := BitVec 16

/-- A command word: 64 bits, bit 63 most significant (R70, R72). -/
abbrev Word := BitVec 64

end Sys2Proof
end

