-- ==== Sys2Proof/Config.lean ====
section
/-! DEFINITION. The implementation parameters of spec/00_scope.md rule R7. The spec leaves no value of any command open, so there is no free value here. -/

namespace Sys2Proof

/-- The four parameters an implementation fixes (R7). "A model takes them as arguments of its configuration":
the State of this model carries one such record unchanged (log 1). -/
structure Params where
  /-- `VCAP`: most elements a value buffer holds. -/
  vcap : Nat
  /-- `PCAP`: most samples, all channels together, a PCM buffer holds. -/
  pcap : Nat
  /-- `NV`: number of value buffers. -/
  nv : Nat
  /-- `NP`: number of PCM buffers. -/
  np : Nat
  deriving DecidableEq, Repr

/-- The defaults of R7's table. -/
def Params.default : Params := { vcap := 131072, pcap := 65536, nv := 4, np := 4 }

/-- The constraints of R7's table. -/
abbrev Params.Legal (c : Params) : Prop :=
  (112348 ≤ c.vcap ∧ c.vcap < 2 ^ 22) ∧ (1024 ≤ c.pcap ∧ c.pcap < 2 ^ 22) ∧
  (1 ≤ c.nv ∧ c.nv ≤ 16) ∧ (1 ≤ c.np ∧ c.np ≤ 16)

end Sys2Proof
end

