-- ==== Sys2Proof/Syntax.lean ====
section
/-! DEFINITION. The 18 commands of CORE command set 1, one constructor per row of spec/opcode_table.json (spec/30_encoding.md rules R70, R76). -/

namespace Sys2Proof

/-- A register field as it stands in the word: four bits (R72). Whether it names a value buffer or a PCM buffer is
fixed by the command (R75). -/
abbrev RegField := BitVec 4

/-- An immediate: 22 bits, unsigned, used as it stands (R74). -/
abbrev Imm := BitVec 22

/-- The commands, operands in the assembler order of R76. -/
inductive Instr where
  /-- `NOP` (R210). -/
  | nop
  /-- `CLRST mask` (R211). -/
  | clrst (mask : Imm)
  /-- `PACK Vd, Va` (R101). -/
  | pack (d a : RegField)
  /-- `UNPACK Vd, Va` (R105). -/
  | unpack (d a : RegField)
  /-- `VDUMP Va` (R108). -/
  | vdump (a : RegField)
  /-- `REQUANT Pd, res` (R120). -/
  | requant (d : RegField) (res : Imm)
  /-- `RESIZE Pd, n` (R135). -/
  | resize (d : RegField) (n : Imm)
  /-- `CHSEL Pd, Pa, c` (R150). -/
  | chsel (d a : RegField) (c : Imm)
  /-- `TRIM Pd, Pa, start, size` (R154). -/
  | trim (d a : RegField) (start size : Imm)
  /-- `PCLONE Pd, Pa` (R158). -/
  | pclone (d a : RegField)
  /-- `NORM Pd, T` (R165). -/
  | norm (d : RegField) (t : Imm)
  /-- `MORPH Pd, Pa, Pb, num, den` (R170). -/
  | morph (d a b : RegField) (num den : Imm)
  /-- `WTCLR` (R180). -/
  | wtclr
  /-- `WTINS slot, Pa` (R181). -/
  | wtins (slot : Imm) (a : RegField)
  /-- `WTFILL` (R185). -/
  | wtfill
  /-- `WTSER Vd` (R194). -/
  | wtser (d : RegField)
  /-- `WTEMIT slotbyte, Va` (R197). -/
  | wtemit (slotbyte : Imm) (a : RegField)
  /-- `WTRAW` (R199). -/
  | wtraw
  deriving DecidableEq, Repr

end Sys2Proof
end

