-- ==== Sys2Proof/WellFormed.lean ====
section
/-! DEFINITION. Well-formed commands: every register number used lies in its file (spec/30_encoding.md rule R78). The width of each field is already its type. -/

namespace Sys2Proof

/-- The field names one of the `NV` value buffers (R78). -/
def vRegOk (c : Params) (r : RegField) : Bool := decide (r.toNat < c.nv)

/-- The field names one of the `NP` PCM buffers (R78). -/
def pRegOk (c : Params) (r : RegField) : Bool := decide (r.toNat < c.np)

/-- The register check of R78, per command; an immediate never makes a command ill formed (R80). -/
def wellFormed (c : Params) : Instr → Bool
  | .nop => true
  | .clrst _ => true
  | .pack d a => vRegOk c d && vRegOk c a
  | .unpack d a => vRegOk c d && vRegOk c a
  | .vdump a => vRegOk c a
  | .requant d _ => pRegOk c d
  | .resize d _ => pRegOk c d
  | .chsel d a _ => pRegOk c d && pRegOk c a
  | .trim d a _ _ => pRegOk c d && pRegOk c a
  | .pclone d a => pRegOk c d && pRegOk c a
  | .norm d _ => pRegOk c d
  | .morph d a b _ _ => pRegOk c d && pRegOk c a && pRegOk c b
  | .wtclr => true
  | .wtins _ a => pRegOk c a
  | .wtfill => true
  | .wtser d => vRegOk c d
  | .wtemit _ a => vRegOk c a
  | .wtraw => true

end Sys2Proof
end

