-- ==== Sys2Proof/Decode.lean ====
section
/-! DEFINITION. The command word: decoder, encoder and assembler text (spec/30_encoding.md rules R72 to R83). -/

namespace Sys2Proof

/-! ## Fields of a word (R72) -/

/-- `op`, bits 63:56. -/
def opField (w : Word) : BitVec 8 := w.extractLsb' 56 8
/-- `rd`, bits 55:52. -/
def rdField (w : Word) : RegField := w.extractLsb' 52 4
/-- `ra`, bits 51:48. -/
def raField (w : Word) : RegField := w.extractLsb' 48 4
/-- `rb`, bits 47:44. -/
def rbField (w : Word) : RegField := w.extractLsb' 44 4
/-- `immA`, bits 43:22. -/
def immAField (w : Word) : Imm := w.extractLsb' 22 22
/-- `immB`, bits 21:0. -/
def immBField (w : Word) : Imm := w.extractLsb' 0 22

/-- `word = op << 56 | rd << 52 | ra << 48 | rb << 44 | immA << 22 | immB` (R72). -/
def assembleFields (op : BitVec 8) (rd ra rb : RegField) (immA immB : Imm) : Word :=
  op ++ rd ++ ra ++ rb ++ immA ++ immB

/-! ## Formats (R73) -/

/-- Which fields a command uses (R73). -/
inductive Format where
  | f0 | fi | fd | fs | fds | fdi | fsi | fdsi | fdsii | fdssii
  deriving DecidableEq, Repr

/-- The bits that must equal `match`, from R73's table. -/
def Format.mask : Format → Word
  | .f0 => 0xFFFFFFFFFFFFFFFF#64
  | .fi => 0xFFFFFFFFFFC00000#64
  | .fd => 0xFF0FFFFFFFFFFFFF#64
  | .fs => 0xFFF0FFFFFFFFFFFF#64
  | .fds => 0xFF00FFFFFFFFFFFF#64
  | .fdi => 0xFF0FFFFFFFC00000#64
  | .fsi => 0xFFF0FFFFFFC00000#64
  | .fdsi => 0xFF00FFFFFFC00000#64
  | .fdsii => 0xFF00F00000000000#64
  | .fdssii => 0xFF00000000000000#64

/-- `match = op << 56` (R73). -/
def matchWord (op : BitVec 8) : Word := assembleFields op 0 0 0 0 0

/-! ## Decoder (R76 to R80) -/

/-- Why a word is illegal. -/
inductive Illegal where
  /-- The opcode is not in R76's table (R79). -/
  | reservedOpcode (op : BitVec 8)
  /-- A bit the command's format does not use is 1 (R77). -/
  | unusedBits (op : BitVec 8)
  /-- A register number is not below `NV` or `NP` (R78). -/
  | registerRange (op : BitVec 8)
  deriving DecidableEq, Repr

/-- R76's table: the format of an opcode, and the command its fields make; `none` for a reserved opcode. -/
def shape (w : Word) : Option (Format × Instr) :=
  match (opField w).toNat with
  | 0x00 => some (.f0, .nop)
  | 0x01 => some (.fi, .clrst (immBField w))
  | 0x10 => some (.fds, .pack (rdField w) (raField w))
  | 0x11 => some (.fds, .unpack (rdField w) (raField w))
  | 0x12 => some (.fs, .vdump (raField w))
  | 0x20 => some (.fdi, .requant (rdField w) (immBField w))
  | 0x21 => some (.fdi, .resize (rdField w) (immBField w))
  | 0x22 => some (.fdsi, .chsel (rdField w) (raField w) (immBField w))
  | 0x23 => some (.fdsii, .trim (rdField w) (raField w) (immAField w) (immBField w))
  | 0x24 => some (.fds, .pclone (rdField w) (raField w))
  | 0x25 => some (.fdi, .norm (rdField w) (immBField w))
  | 0x26 => some (.fdssii, .morph (rdField w) (raField w) (rbField w) (immAField w) (immBField w))
  | 0x30 => some (.f0, .wtclr)
  | 0x31 => some (.fsi, .wtins (immBField w) (raField w))
  | 0x32 => some (.f0, .wtfill)
  | 0x33 => some (.fd, .wtser (rdField w))
  | 0x34 => some (.fsi, .wtemit (immBField w) (raField w))
  | 0x35 => some (.f0, .wtraw)
  | _ => none

/-- Total decoding: every word is exactly one command or illegal (R80). -/
def decode (c : Params) (w : Word) : Except Illegal Instr :=
  match shape w with
  | none => .error (.reservedOpcode (opField w))
  | some (f, i) =>
    if w &&& f.mask = matchWord (opField w) then
      if wellFormed c i then .ok i else .error (.registerRange (opField w))
    else .error (.unusedBits (opField w))

/-- The word whose low `nbits` bits are those of `w`, every bit above them 0. A command is one 64-bit word, so bit 0 of
the table's numbering is bit 0 of the word (R70, R72). -/
def tableWord (nbits w : Nat) : Word := BitVec.ofNat 64 (w % 2 ^ nbits)

/-- What the decoder reads from a row of spec/opcode_table.json, with the default parameters. -/
def decodeTableWord (nbits w : Nat) : Option Instr :=
  (decode Params.default (tableWord nbits w)).toOption

/-! ## Encoder (R72, R76) -/

/-- The word of a command; every field the format does not use is 0 (R77). -/
def encode : Instr → Word
  | .nop => assembleFields 0x00 0 0 0 0 0
  | .clrst mask => assembleFields 0x01 0 0 0 0 mask
  | .pack d a => assembleFields 0x10 d a 0 0 0
  | .unpack d a => assembleFields 0x11 d a 0 0 0
  | .vdump a => assembleFields 0x12 0 a 0 0 0
  | .requant d res => assembleFields 0x20 d 0 0 0 res
  | .resize d n => assembleFields 0x21 d 0 0 0 n
  | .chsel d a c => assembleFields 0x22 d a 0 0 c
  | .trim d a start size => assembleFields 0x23 d a 0 start size
  | .pclone d a => assembleFields 0x24 d a 0 0 0
  | .norm d t => assembleFields 0x25 d 0 0 0 t
  | .morph d a b num den => assembleFields 0x26 d a b num den
  | .wtclr => assembleFields 0x30 0 0 0 0 0
  | .wtins slot a => assembleFields 0x31 0 a 0 0 slot
  | .wtfill => assembleFields 0x32 0 0 0 0 0
  | .wtser d => assembleFields 0x33 d 0 0 0 0
  | .wtemit slotbyte a => assembleFields 0x34 0 a 0 0 slotbyte
  | .wtraw => assembleFields 0x35 0 0 0 0 0

/-! ## Assembler text (R83) -/

/-- A value buffer operand, `V0` to `V15`. -/
def vName (r : RegField) : String := "V" ++ toString r.toNat
/-- A PCM buffer operand, `P0` to `P15`. -/
def pName (r : RegField) : String := "P" ++ toString r.toNat
/-- An immediate, in decimal (log 11). -/
def immName (n : Imm) : String := toString n.toNat

/-- A command as R83 writes it: the mnemonic, then the operands in R76's order, separated by commas. -/
def asmText : Instr → String
  | .nop => "NOP"
  | .clrst mask => "CLRST " ++ immName mask
  | .pack d a => "PACK " ++ vName d ++ ", " ++ vName a
  | .unpack d a => "UNPACK " ++ vName d ++ ", " ++ vName a
  | .vdump a => "VDUMP " ++ vName a
  | .requant d res => "REQUANT " ++ pName d ++ ", " ++ immName res
  | .resize d n => "RESIZE " ++ pName d ++ ", " ++ immName n
  | .chsel d a c => "CHSEL " ++ pName d ++ ", " ++ pName a ++ ", " ++ immName c
  | .trim d a start size =>
    "TRIM " ++ pName d ++ ", " ++ pName a ++ ", " ++ immName start ++ ", " ++ immName size
  | .pclone d a => "PCLONE " ++ pName d ++ ", " ++ pName a
  | .norm d t => "NORM " ++ pName d ++ ", " ++ immName t
  | .morph d a b num den =>
    "MORPH " ++ pName d ++ ", " ++ pName a ++ ", " ++ pName b ++ ", " ++ immName num ++ ", " ++ immName den
  | .wtclr => "WTCLR"
  | .wtins slot a => "WTINS " ++ immName slot ++ ", " ++ pName a
  | .wtfill => "WTFILL"
  | .wtser d => "WTSER " ++ vName d
  | .wtemit slotbyte a => "WTEMIT " ++ immName slotbyte ++ ", " ++ vName a
  | .wtraw => "WTRAW"

end Sys2Proof
end

