-- ==== Sys2Proof/Machine/State.lean ====
section
/-! DEFINITION. The architectural state of CORE and its reset values (spec/10_state.md rules R20 to R37), with the model's own fields: parameters, the host's moves to come, the host's read answers. -/

namespace Sys2Proof.Machine

/-- `P[i].ch`: 1 or 2 (R24). -/
inductive Channels where
  | mono
  | stereo
  deriving DecidableEq, Repr

/-- `P[i].res`: 8, 16, 24 or 32 (R24). -/
inductive Resolution where
  | r8
  | r16
  | r24
  | r32
  deriving DecidableEq, Repr

/-- The seven sticky flags of STATUS (R32). -/
inductive Flag where
  | ovf | ires | ich | oor | lay | inc | ill
  deriving DecidableEq, Repr

/-- A PCM buffer (R24): sample `k` of channel `c` is `s[k * ch + c]` (R25). -/
structure PcmBuffer where
  /-- samples per channel -/
  spc : Nat
  /-- channels -/
  ch : Channels
  /-- resolution -/
  res : Resolution
  /-- the interleaved samples -/
  s : List Sample
  deriving DecidableEq, Repr

/-- The default buffer `spc = 0, ch = 1, res = 16, s = []` (R37). -/
def PcmBuffer.default : PcmBuffer := { spc := 0, ch := .mono, res := .r16, s := [] }

/-- One slot of the wavetable: its set flag `WT.set[k]` and its samples `WT.slot[k]`, which exist whether the slot
is set or not (R27). -/
structure Slot where
  set : Bool
  samples : List Sample16
  deriving DecidableEq, Repr

/-- A slot as reset and `WTCLR` leave it: unset, 1024 zeros (R27, R37). -/
def Slot.empty : Slot := { set := false, samples := List.replicate 1024 0 }

/-- The empty wavetable: 16 empty slots (R37). -/
def emptyTable : List Slot := List.replicate 16 Slot.empty

/-- The moves the host can make between commands (R56). A load carries plain numbers, so that a load the port refuses
(R57) can be written down too (log 9). -/
inductive HostMove where
  /-- `Issue(w)` -/
  | issue (w : Word)
  /-- `HostLoadV(i, bytes)` -/
  | loadV (i : Nat) (bytes : List Nat)
  /-- `HostLoadP(i, ch, res, samples)` -/
  | loadP (i ch res : Nat) (samples : List Int)
  /-- `HostReadV(i)` -/
  | readV (i : Nat)
  /-- `HostReadP(i)` -/
  | readP (i : Nat)
  /-- `HostReadWT()` -/
  | readWT
  /-- `HostReadCK()` -/
  | readCK
  /-- `HostReadSTATUS()` -/
  | readStatus
  /-- `Reset()` -/
  | reset
  deriving DecidableEq, Repr

/-- What a host read returns (R56). -/
inductive HostReply where
  | bytes (x : List Byte)
  | pcm (b : PcmBuffer)
  | table (t : List Slot)
  | checksum (ck : BitVec 16)
  | status (st : BitVec 32)
  /-- the buffer number read does not exist (log 5) -/
  | noBuffer
  deriving DecidableEq, Repr

/-- The state. The first six fields are the whole architectural state of R20; the last three are the model's own
(logs 1, 2 and 4). -/
structure State where
  /-- `V[0..NV-1]` (R21) -/
  v : List (List Byte)
  /-- `P[0..NP-1]` (R24) -/
  p : List PcmBuffer
  /-- `WT`, slots 0 to 15 (R27) -/
  wt : List Slot
  /-- `CK` (R29) -/
  ck : BitVec 16
  /-- `STATUS` (R32) -/
  status : BitVec 32
  /-- `OUT`, oldest byte first (R31) -/
  out : List Byte
  /-- the parameters `VCAP`, `PCAP`, `NV`, `NP` (R7, R36); no step writes them -/
  cfg : Params
  /-- the moves the host has still to make, next first (R30, R36, R56) -/
  host : List HostMove
  /-- what the host's reads have returned, oldest first (R56) -/
  replies : List HostReply
  deriving DecidableEq, Repr

/-- CORE raises no exception and no command faults, aborts or stops the block (R220): there is no fault. -/
inductive Fault where
  deriving DecidableEq, Repr

/-- The reasons for which the MODEL has no meaning. -/
inductive Refusal where
  /-- Raised by `exec` alone, for a command the model does not cover; no arm raises it today. Safe: the run stops. -/
  | notModelled (mnemonic : String)
  deriving DecidableEq, Repr

/-- The outcome of a command or of a step. -/
abbrev Outcome := Host.Outcome State Fault Refusal

/-- The state right after reset for given parameters (R37); `OUT` is empty because observation begins here (R31, log 6),
and the host has made no move yet. -/
def State.resetWith (c : Params) : State where
  v := List.replicate c.nv []
  p := List.replicate c.np PcmBuffer.default
  wt := emptyTable
  ck := 0
  status := 0
  out := []
  cfg := c
  host := []
  replies := []

/-- The state right after reset (R37), with the default parameters of R7. -/
def State.reset : State := State.resetWith Params.default

end Sys2Proof.Machine
end

