-- ==== Sys2Proof/Machine/Flags.lean ====
section
/-! DEFINITION. The STATUS register: bit places, raising and clearing its sticky flags (spec/10_state.md rules R32, R33; spec/46_system.md rule R211). -/

namespace Sys2Proof.Machine

/-- The bit of STATUS a flag is (R32). -/
def Flag.bit : Flag → Nat
  | .ovf => 0
  | .ires => 1
  | .ich => 2
  | .oor => 3
  | .lay => 4
  | .inc => 5
  | .ill => 6

/-- The STATUS word with this flag alone. -/
def Flag.mask (f : Flag) : BitVec 32 := BitVec.ofNat 32 (2 ^ f.bit)

/-- `flag NAME`: `STATUS.NAME <- 1`, sticky (R12, R33). -/
def State.raise (s : State) (f : Flag) : State := { s with status := s.status ||| f.mask }

/-- `if cond: flag NAME`. -/
def State.raiseIf (s : State) (cond : Bool) (f : Flag) : State :=
  { s with status := s.status ||| (if cond then f.mask else 0) }

/-- `STATUS <- STATUS & ~zext_32(mask)` (R211). -/
def State.clearFlags (s : State) (mask : Imm) : State :=
  { s with status := s.status &&& ~~~(mask.setWidth 32) }

end Sys2Proof.Machine
end

