-- ==== Sys2Proof/Machine/Operands.lean ====
section
/-! DEFINITION. Operand forms and numeric primitives: channel counts, resolutions, the primitives of spec/00_scope.md rule R11, canonical samples (spec/10_state.md rule R26), interpolation (spec/44_normalize_morph.md rule R170). -/

namespace Sys2Proof.Machine

/-! ## Channel counts and resolutions (R24) -/

/-- The channel count as a number. -/
def Channels.count : Channels → Nat
  | .mono => 1
  | .stereo => 2

/-- The channel count with this number, if there is one. -/
def Channels.ofNat? : Nat → Option Channels
  | 1 => some .mono
  | 2 => some .stereo
  | _ => none

/-- The resolution as a number of bits. -/
def Resolution.bits : Resolution → Nat
  | .r8 => 8
  | .r16 => 16
  | .r24 => 24
  | .r32 => 32

/-- The resolution with this number of bits, if there is one (R121: only 8, 16, 24 and 32). -/
def Resolution.ofNat? : Nat → Option Resolution
  | 8 => some .r8
  | 16 => some .r16
  | 24 => some .r24
  | 32 => some .r32
  | _ => none

/-! ## Numeric primitives (R10, R11) -/

/-- `wrap32(v)`: the stored 32-bit value of an integer. -/
def wrap32 (v : Int) : Sample := BitVec.ofInt 32 v

/-- `sext_16` of a stored sample: its low 16 bits read as a signed number. -/
def sext16 (x : Sample) : Int := (x.setWidth 16).toInt

/-- `clamp(v, lo, hi)`. -/
def clamp (v lo hi : Int) : Int := if v < lo then lo else if v > hi then hi else v

/-- `v[i]`: one bit of the two's-complement representation of an unbounded integer. -/
def intBit (v : Int) (i : Nat) : Bool := decide ((v / 2 ^ i) % 2 = 1)

/-- `v >> k`: the arithmetic right shift, `floor(v / 2^k)` (the divisor is positive, so `/` rounds down). -/
def shiftDown (v : Int) (k : Nat) : Int := v / 2 ^ k

/-- Element `i` of a sequence of samples; a number beyond its end reads 0, which no well-formed state can show
(log 10). The sequence is an array so that a run reads it fast. -/
def sampleAt (x : Array Sample) (i : Nat) : Sample := x[i]?.getD 0

/-! ## Canonical samples (R26) -/

/-- The smallest canonical value of a resolution. -/
def Resolution.lowest : Resolution → Int
  | .r8 => 0
  | r => -(2 ^ (r.bits - 1))

/-- The largest canonical value of a resolution. -/
def Resolution.highest : Resolution → Int
  | .r8 => 255
  | r => 2 ^ (r.bits - 1) - 1

/-- A stored sample is canonical when it lies in its resolution's range; no command tests it (R26). -/
def canonical (r : Resolution) (x : Sample) : Bool :=
  decide (r.lowest ≤ x.toInt) && decide (x.toInt ≤ r.highest)

/-! ## Interpolation (R170, R186) -/

/-- `trunc((a * den + (b - a) * num) / den)`: the interpolation of `MORPH` and of the gap fill, on exact integers,
truncated toward zero (R170, R173, R186). -/
def lerp (a b : Int) (num den : Nat) : Int := Int.tdiv (a * den + (b - a) * num) den

end Sys2Proof.Machine
end

