-- ==== Sys2Proof/Machine/Ops.lean ====
section
/-! DEFINITION. The shared operations on the buffer files, the wavetable, CK and OUT (spec/10_state.md, spec/20_memory.md), and the refusal of an illegal word, which stands where other machines take an exception. -/

namespace Sys2Proof.Machine

/-! ## Value buffers (R21) -/

/-- `V[r]`. A number outside the file reads the empty sequence; no decoded command has one (R78, log 10). -/
def State.readV (s : State) (r : RegField) : List Byte := s.v.getD r.toNat []

/-- `V[r] <- x`. -/
def State.writeV (s : State) (r : RegField) (x : List Byte) : State := { s with v := s.v.set r.toNat x }

/-- `if len(y) > VCAP: flag OVF; V[r] <- y[0 .. min(len(y), VCAP))`: the store of `PACK`, `UNPACK` and `WTSER`
(R101, R102, R105, R106, R194, R195). -/
def State.storeV (s : State) (r : RegField) (y : List Byte) : State :=
  (s.raiseIf (decide (s.cfg.vcap < y.length)) .ovf).writeV r (y.take s.cfg.vcap)

/-! ## PCM buffers (R24) -/

/-- `P[r]`. A number outside the file reads the default buffer; no decoded command has one (R78, log 10). -/
def State.readP (s : State) (r : RegField) : PcmBuffer := s.p.getD r.toNat PcmBuffer.default

/-- `P[r] <- b`. -/
def State.writeP (s : State) (r : RegField) (b : PcmBuffer) : State := { s with p := s.p.set r.toNat b }

/-- The samples of channel `c`: `[ s[k * ch + c] for k = 0 .. spc - 1 ]` (R25, R135, R150). -/
def PcmBuffer.channel (b : PcmBuffer) (c : Nat) : List Sample :=
  let x := b.s.toArray
  (List.range b.spc).map fun k => sampleAt x (k * b.ch.count + c)

/-! ## The wavetable (R27) -/

/-- Slot `k` of a table. -/
def slotAt (t : List Slot) (k : Nat) : Slot := t.getD k Slot.empty

/-- `WT.slot[k] <- w; WT.set[k] <- 1`. -/
def putSlot (t : List Slot) (k : Nat) (w : List Sample16) : List Slot := t.set k { set := true, samples := w }

/-- `WT <- t`. -/
def State.setWt (s : State) (t : List Slot) : State := { s with wt := t }

/-- Some slot is unset: the condition of `INC` at emission (R196). -/
def anyUnset (t : List Slot) : Bool := (List.range 16).any fun k => !(slotAt t k).set

/-! ## CK and OUT -/

/-- `CK <- x` (R29). -/
def State.setCk (s : State) (x : BitVec 16) : State := { s with ck := x }

/-- `OUT.append` of each byte in order (R31, R58). -/
def State.emit (s : State) (x : List Byte) : State := { s with out := s.out ++ x }

/-! ## Host bookkeeping (R30, R56) -/

/-- The moves still to come. -/
def State.setHost (s : State) (h : List HostMove) : State := { s with host := h }

/-- A read returns its answer to the host (R56). -/
def State.answer (s : State) (r : HostReply) : State := { s with replies := s.replies ++ [r] }

/-! ## In place of an exception

CORE has no exception, no trap entry and no return (R220, R224). What an illegal word does instead is this. -/

/-- An illegal word is refused: `ILL` is set and nothing else changes (R80). -/
def State.refuseIllegal (s : State) : State := s.raise .ill

end Sys2Proof.Machine
end

