-- ==== Sys2Proof/Machine/ChannelTrim.lean ====
section
/-! DEFINITION. Channel extraction, trim and clone: CHSEL, TRIM, PCLONE (spec/43_channel_trim_clone.md). -/

namespace Sys2Proof.Machine

/-- The single-channel buffer made of channel `c` of `b`, with its resolution (R150). -/
def channelBuffer (b : PcmBuffer) (c : Nat) : PcmBuffer :=
  { spc := b.spc, ch := .mono, res := b.res, s := b.channel c }

/-- `CHSEL Pd, Pa, c` (R150, R151): an index the source does not have becomes 0, with `ICH`. -/
def execChsel (d a : RegField) (c : Imm) (s : State) : Outcome :=
  let src := s.readP a
  let present := decide (c.toNat < src.ch.count)
  .next ((s.raiseIf (!present) .ich).writeP d (channelBuffer src (if present then c.toNat else 0)))

/-- Samples `start` to `start + size - 1` of every channel of `b`, interleaved as before (R154). -/
def trimBuffer (b : PcmBuffer) (start size : Nat) : PcmBuffer :=
  { b with spc := size, s := (b.s.drop (start * b.ch.count)).take (size * b.ch.count) }

/-- `TRIM Pd, Pa, start, size` (R154, R155): a range beyond the source gives the default buffer, with `OOR`. -/
def execTrim (d a : RegField) (start size : Imm) (s : State) : Outcome :=
  let src := s.readP a
  if start.toNat + size.toNat > src.spc then .next ((s.raise .oor).writeP d PcmBuffer.default)
  else .next (s.writeP d (trimBuffer src start.toNat size.toNat))

/-- `PCLONE Pd, Pa` (R158). -/
def execPclone (d a : RegField) (s : State) : Outcome := .next (s.writeP d (s.readP a))

end Sys2Proof.Machine
end

