-- ==== Sys2Proof/Machine/Codec.lean ====
section
/-! DEFINITION. The byte packing codec: PACK, UNPACK, VDUMP (spec/40_packing_codec.md). -/

namespace Sys2Proof.Machine

/-- Cuts a sequence into runs of `k` elements, the last one shorter when the input ends inside it; `acc` is the run
being gathered. "a run is flushed either when 7 values have accumulated or when input is exhausted" (R100). -/
def runsFrom {α : Type} (k : Nat) : List α → List α → List (List α)
  | acc, [] => if acc.isEmpty then [] else [acc]
  | acc, x :: xs => if acc.length + 1 = k then (acc ++ [x]) :: runsFrom k [] xs else runsFrom k (acc ++ [x]) xs

/-- The runs of a sequence. -/
def runs {α : Type} (k : Nat) (x : List α) : List (List α) := runsFrom k [] x

/-- `pb(g)`: bit `k` is bit 7 of value `k` of the run (R100). -/
def packByte (run : List Byte) : Byte :=
  (run.zipIdx.map fun (b, k) => if b.getLsbD 7 then BitVec.ofNat 8 (2 ^ k) else 0).foldl (· ||| ·) 0

/-- `G(g)`: the pack byte, then the values with bit 7 cleared (R100). -/
def packRun (run : List Byte) : List Byte := packByte run :: run.map (· &&& 0x7F#8)

/-- `Pack` (R100). -/
def pack (x : List Byte) : List Byte := (runs 7 x).flatMap packRun

/-- One data byte of a packet: its low 7 bits, and bit `k` of the pack byte as bit 7 (R104; bit 7 of the data byte
itself is discarded). -/
def unpackByte (pb : Byte) (k : Nat) (b : Byte) : Byte :=
  (b &&& 0x7F#8) ||| (if pb.getLsbD k then 0x80#8 else 0)

/-- One packet: the byte at position 0 is the pack byte and gives no output; the byte at position `k + 1` takes bit `k`
of it (R104). -/
def unpackRun : List Byte → List Byte
  | [] => []
  | pb :: data => data.zipIdx.map fun (b, k) => unpackByte pb k b

/-- `Unpack` (R104): positions cycle 0 to 7. -/
def unpack (x : List Byte) : List Byte := (runs 8 x).flatMap unpackRun

/-- `PACK Vd, Va` (R101, R102). -/
def execPack (d a : RegField) (s : State) : Outcome := .next (s.storeV d (pack (s.readV a)))

/-- `UNPACK Vd, Va` (R105, R106). -/
def execUnpack (d a : RegField) (s : State) : Outcome := .next (s.storeV d (unpack (s.readV a)))

/-- `VDUMP Va` (R108). -/
def execVdump (a : RegField) (s : State) : Outcome := .next (s.emit (s.readV a))

end Sys2Proof.Machine
end

