-- ==== Sys2Proof/Machine/Emit.lean ====
section
/-! DEFINITION. Multi-level decimator, serialiser, checksum generator and emitters: WTSER, WTEMIT, WTRAW (spec/45_wavetable.md rules R190 to R199; spec/30_encoding.md rules R86, R88). -/

namespace Sys2Proof.Machine

/-! ## The multi-level decimator (R190, R191) -/

/-- `Level(w, n)[i] = w[i * (1024 / n)]` (R190). -/
def level (w : List Sample16) (n : Nat) : List Sample16 :=
  let x := w.toArray
  (List.range n).map fun i => x[i * (1024 / n)]?.getD 0

/-- `Inst(k)`: the 12 instances of one slot, 3072 samples (R191). -/
def instances (w : List Sample16) : List Sample16 :=
  level w 1024 ++ level w 512 ++ level w 256 ++ level w 256 ++ (List.replicate 8 (level w 128)).flatten

/-- `Inst(0) ++ … ++ Inst(15)`: 49152 samples (R191). The set flags are not looked at (R196). -/
def tableSamples (t : List Slot) : List Sample16 :=
  (List.range 16).flatMap fun k => instances (slotAt t k).samples

/-! ## Serialization and checksum (R192, R193) -/

/-- `hi = s[15:8]` (R192). -/
def highByte (x : Sample16) : Byte := x.extractLsb' 8 8

/-- `lo = s[7:0]` (R192). -/
def lowByte (x : Sample16) : Byte := x.extractLsb' 0 8

/-- A sample as bytes, high byte first (R192, R53). -/
def sampleBytes (x : Sample16) : List Byte := [highByte x, lowByte x]

/-- `(lo << 8) | hi`: the sample with its bytes exchanged (R193). -/
def swapped (x : Sample16) : BitVec 16 := lowByte x ++ highByte x

/-- The running sum of the byte-swapped samples modulo `2^16`, from 0 (R193). -/
def checksum (x : List Sample16) : BitVec 16 := x.foldl (fun ck y => ck + swapped y) 0

/-- The unpacked payload `U`: 98304 bytes (R194). -/
def payload (t : List Slot) : List Byte := (tableSamples t).flatMap sampleBytes

/-- `WTSER Vd` (R194 to R196). -/
def execWtser (d : RegField) (s : State) : Outcome :=
  .next (((s.raiseIf (anyUnset s.wt) .inc).setCk (checksum (tableSamples s.wt))).storeV d (payload s.wt))

/-! ## The SysEx frame (R86, R197, R198) -/

/-- `F0 01 31 6A 6C 01 6B` (R86). -/
def frameHeader : List Byte := [0xF0, 0x01, 0x31, 0x6A, 0x6C, 0x01, 0x6B]

/-- Byte `k` of the name field: bit 7 cleared, a space where the name has ended (R197, R198). -/
def nameByte (name : List Byte) (k : Nat) : Byte :=
  match name[k]? with
  | some b => b &&& 0x7F#8
  | none => 0x20#8

/-- The 8 name bytes of the frame (R198). -/
def nameField (name : List Byte) : List Byte := (List.range 8).map (nameByte name)

/-- One of the first 8 name bytes is above `0x7F` (R197: later bytes are not tested). -/
def nameMasked (name : List Byte) : Bool := (name.take 8).any fun b => decide (0x7F < b.toNat)

/-- The slot byte `immB[6:0]` (R198). -/
def slotByte (n : Imm) : Byte := (n.extractLsb' 0 7).setWidth 8

/-- The first checksum byte of the frame, `CK[6:0]` (R197, 90_conflicts.md C3). -/
def checksumLow (ck : BitVec 16) : Byte := (ck.extractLsb' 0 7).setWidth 8

/-- The second checksum byte of the frame, `CK[14:8]` (R197, 90_conflicts.md C3). -/
def checksumHigh (ck : BitVec 16) : Byte := (ck.extractLsb' 8 7).setWidth 8

/-- The frame (R86, R197): header, slot byte, name, `00`, packed payload, two checksum bytes, `F7`. -/
def frame (sb : Byte) (name u : List Byte) (ck : BitVec 16) : List Byte :=
  frameHeader ++ [sb] ++ nameField name ++ [0x00] ++ pack u ++ [checksumLow ck, checksumHigh ck, 0xF7]

/-- `WTEMIT slotbyte, Va` (R197, R198). -/
def execWtemit (slotbyte : Imm) (a : RegField) (s : State) : Outcome :=
  let name := s.readV a
  let ck := checksum (tableSamples s.wt)
  let s' := ((s.setCk ck).raiseIf (anyUnset s.wt) .inc).raiseIf (decide (127 < slotbyte.toNat) || nameMasked name) .oor
  .next (s'.emit (frame (slotByte slotbyte) name (payload s.wt) ck))

/-! ## The raw dump (R88, R199) -/

/-- All 16 x 1024 samples, high byte first (R88). -/
def rawDump (t : List Slot) : List Byte :=
  (List.range 16).flatMap fun k => (slotAt t k).samples.flatMap sampleBytes

/-- `WTRAW` (R199). -/
def execWtraw (s : State) : Outcome := .next ((s.raiseIf (anyUnset s.wt) .inc).emit (rawDump s.wt))

end Sys2Proof.Machine
end

