-- ==== Sys2Proof/Machine/NormMorph.lean ====
section
/-! DEFINITION. The normalize and morph unit: NORM, MORPH (spec/44_normalize_morph.md). -/

namespace Sys2Proof.Machine

/-- `M = 2^(res-1) - 1`: the largest positive value of the resolution (R165, R167). -/
def maxAmplitude (r : Resolution) : Int := 2 ^ (r.bits - 1) - 1

/-- The peak absolute value over all stored samples, on unbounded integers; 0 for an empty buffer (R165). -/
def peak (x : List Sample) : Nat := x.foldl (fun m y => max m y.toInt.natAbs) 0

/-- `wrap32(trunc((s * M * T) / (32768 * peak)))` (R165). -/
def normSample (m : Int) (t pk : Nat) (x : Sample) : Sample :=
  wrap32 (Int.tdiv (x.toInt * m * t) (32768 * pk))

/-- The buffer `NORM` leaves for target `t / 32768`: unchanged when the peak is 0 (R165). -/
def normBuffer (t : Nat) (b : PcmBuffer) : PcmBuffer :=
  if peak b.s = 0 then b else { b with s := b.s.map (normSample (maxAmplitude b.res) t (peak b.s)) }

/-- `NORM Pd, T` (R165, R166): a target above 32768 is 32768, with `OOR`. -/
def execNorm (d : RegField) (t : Imm) (s : State) : Outcome :=
  .next ((s.raiseIf (decide (32768 < t.toNat)) .oor).writeP d (normBuffer (min t.toNat 32768) (s.readP d)))

/-- The buffer `MORPH` leaves: the start buffer's attributes, every sample interpolated by its position in the raw
interleaved array (R170). -/
def morphBuffer (a b : PcmBuffer) (num den : Nat) : PcmBuffer :=
  { a with s := List.zipWith (fun x y => wrap32 (lerp x.toInt y.toInt num den)) a.s b.s }

/-- `MORPH Pd, Pa, Pb, num, den` (R170 to R172): the fraction is tested before the layouts (R222). -/
def execMorph (d a b : RegField) (num den : Imm) (s : State) : Outcome :=
  let x := s.readP a
  let y := s.readP b
  if den.toNat = 0 ∨ num.toNat > den.toNat then .next (s.raise .oor)
  else if x.spc ≠ y.spc ∨ x.ch ≠ y.ch then .next (s.raise .lay)
  else .next (s.writeP d (morphBuffer x y num.toNat den.toNat))

end Sys2Proof.Machine
end

