-- ==== Sys2Proof/Machine/Requant.lean ====
section
/-! DEFINITION. The PCM requantizer: REQUANT (spec/41_requantizer.md). -/

namespace Sys2Proof.Machine

/-- Step 2 of R122, lowering by `k = old - new` bits: arithmetic shift, round up a non-negative value whose round bit is
1, round down a negative value whose round bit is 0, clamp to `new` bits (R122, R123). -/
def lowerBy (v : Int) (k new : Nat) : Int :=
  let t := shiftDown v k
  let t := if intBit v (k - 1) && decide (0 ≤ v) then t + 1 else t
  let t := if !intBit v (k - 1) && decide (v < 0) then t - 1 else t
  clamp t (-(2 ^ (new - 1))) (2 ^ (new - 1) - 1)

/-- Step 2 of R122 in its three cases. -/
def convertBits (v : Int) (old new : Nat) : Int :=
  if new < old then lowerBy v (old - new) new
  else if old < new then v * 2 ^ (new - old)
  else v

/-- `Q(s, old, new)` (R122): remove the 8-bit bias, convert, put the 8-bit bias back, wrap to 32 bits. -/
def requantSample (old new : Resolution) (x : Sample) : Sample :=
  let v := if old = .r8 then x.toInt - 128 else x.toInt
  let t := convertBits v old.bits new.bits
  wrap32 (if new = .r8 then (t + 128) % 256 else t)

/-- The buffer `REQUANT` leaves: every sample converted, `res` set, `spc` and `ch` unchanged (R120). -/
def requantBuffer (new : Resolution) (b : PcmBuffer) : PcmBuffer :=
  { b with res := new, s := b.s.map (requantSample b.res new) }

/-- `REQUANT Pd, res` (R120, R121). -/
def execRequant (d : RegField) (res : Imm) (s : State) : Outcome :=
  match Resolution.ofNat? res.toNat with
  | none => .next (s.raise .ires)
  | some new => .next (s.writeP d (requantBuffer new (s.readP d)))

end Sys2Proof.Machine
end

