-- ==== Sys2Proof/Machine/Resize.lean ====
section
/-! DEFINITION. The PCM resampler: RESIZE (spec/42_resampler.md). -/

namespace Sys2Proof.Machine

/-- `mean16(a, b) = trunc((sext_16(a) + sext_16(b)) / 2)` (R139). -/
def mean16 (a b : Sample) : Sample := wrap32 (Int.tdiv (sext16 a + sext16 b) 2)

/-- One growth round: the mean of each adjacent pair between its two samples (R138). -/
def grow (x : List Sample) : List Sample :=
  (List.zipWith (fun a b => [a, mean16 a b]) x x.tail).flatten ++ x.getLast?.toList

/-- Growth rounds while there are fewer than `target` samples (R138). Each round adds a sample to a sequence of two or
more, so `target` rounds of fuel always suffice. -/
def growTo : Nat → Nat → List Sample → List Sample
  | 0, _, x => x
  | fuel + 1, target, x => if x.length < target then growTo fuel target (grow x) else x

/-- `idx(i) = min(floor(i * cur / target), cur - 1)` (R140, R141). -/
def decimationIndex (cur target i : Nat) : Nat := min (i * cur / target) (cur - 1)

/-- One channel resized: grown, then sampled at the nearest index (R138, R140). -/
def resizeChannel (target : Nat) (x : List Sample) : List Sample :=
  let g := growTo target target x
  let y := g.toArray
  (List.range target).map fun i => sampleAt y (decimationIndex g.length target i)

/-- `y[i * ch + c] <- x_c[i]`: the channels put back in interleaved order (R25, R135). -/
def interleave (n : Nat) (xs : List (List Sample)) : List Sample :=
  let ys := xs.map List.toArray
  (List.range n).flatMap fun i => ys.map fun y => sampleAt y i

/-- The buffer a resize to `target` samples per channel leaves, for a buffer with at least 2 (R135); `ch` and `res` are
unchanged. -/
def resizeBuffer (target : Nat) (b : PcmBuffer) : PcmBuffer :=
  { b with
    spc := target
    s := interleave target ((List.range b.ch.count).map fun c => resizeChannel target (b.channel c)) }

/-- `floor(PCAP / ch)`: the most samples per channel the buffer can have (R136). -/
def sizeCap (c : Params) (b : PcmBuffer) : Nat := c.pcap / b.ch.count

/-- `RESIZE Pd, n` (R135 to R137): the request is capped with `OVF`, then a buffer of fewer than 2 samples per channel
is left as it is. -/
def execResize (d : RegField) (n : Imm) (s : State) : Outcome :=
  let b := s.readP d
  let cap := sizeCap s.cfg b
  let s' := s.raiseIf (decide (cap < n.toNat)) .ovf
  if b.spc < 2 then .next s' else .next (s'.writeP d (resizeBuffer (min n.toNat cap) b))

end Sys2Proof.Machine
end

