-- ==== Sys2Proof/Machine/System.lean ====
section
/-! DEFINITION. The system commands NOP and CLRST (spec/46_system.md). -/

namespace Sys2Proof.Machine

/-- `NOP` (R210). -/
def execNop (s : State) : Outcome := .next s

/-- `CLRST mask` (R211). -/
def execClrst (mask : Imm) (s : State) : Outcome := .next (s.clearFlags mask)

end Sys2Proof.Machine
end

