-- ==== Sys2Proof/Machine/Wavetable.lean ====
section
/-! DEFINITION. The wavetable store and its gap fill: WTCLR, WTINS, WTFILL (spec/45_wavetable.md rules R180 to R189). -/

namespace Sys2Proof.Machine

/-- `WTCLR` (R180). -/
def execWtclr (s : State) : Outcome := .next (s.setWt emptyTable)

/-- The 1024 slot samples of a source buffer: resized to 1024, then requantized to 16 bits, then cut to their low 16
bits (R181 to R183). -/
def slotSamples (b : PcmBuffer) : List Sample16 :=
  (requantBuffer .r16 (resizeBuffer 1024 b)).s.map fun x => x.setWidth 16

/-- `WTINS slot, Pa` (R181): the slot number is tested before the layout (R222). -/
def execWtins (slot : Imm) (a : RegField) (s : State) : Outcome :=
  let src := s.readP a
  if slot.toNat > 15 then .next (s.raise .oor)
  else if src.ch ≠ .mono ∨ src.spc < 2 then .next (s.raise .lay)
  else .next (s.setWt (putSlot s.wt slot.toNat (slotSamples src)))

/-- `Interp`, on every sample position of two slots (R186). -/
def interpSamples (a b : List Sample16) (p q : Nat) : List Sample16 :=
  List.zipWith (fun x y => BitVec.ofInt 16 (lerp x.toInt y.toInt p q)) a b

/-- "If slot 15 is unset, copy slot 0 into slot 15" (R185, R187). -/
def closeTable (t : List Slot) : List Slot :=
  if (slotAt t 15).set then t else putSlot t 15 (slotAt t 0).samples

/-- The slots strictly between the set slots `lo` and `hi`, filled in increasing order (R185). -/
def fillRun (lo hi : Nat) (t : List Slot) : List Slot :=
  (List.range (hi - lo - 1)).foldl
    (fun u n => putSlot u (lo + 1 + n) (interpSamples (slotAt u lo).samples (slotAt u hi).samples (n + 1) (hi - lo))) t

/-- One turn of R185's loop over `hi`; the pair holds `lo` and the table. -/
def fillStep (st : Nat × List Slot) (hi : Nat) : Nat × List Slot :=
  if (slotAt st.2 hi).set then (hi, fillRun st.1 hi st.2) else st

/-- The table `WTFILL` leaves when slot 0 is set (R185). -/
def fillTable (t : List Slot) : List Slot := ((List.range' 1 15).foldl fillStep (0, closeTable t)).2

/-- `WTFILL` (R185, R188). -/
def execWtfill (s : State) : Outcome :=
  if (slotAt s.wt 0).set then .next (s.setWt (fillTable s.wt)) else .next (s.raise .inc)

end Sys2Proof.Machine
end

