-- ==== Sys2Proof/Machine/Dispatch.lean ====
section
/-! DEFINITION. exec: one arm per command, each one direct call of its meaning. -/

namespace Sys2Proof.Machine

def exec (i : Instr) (s : State) : Host.Outcome State Fault Refusal :=
  match i with
  | .nop => Sys2Proof.Machine.execNop s
  | .clrst mask => Sys2Proof.Machine.execClrst mask s
  | .pack d a => Sys2Proof.Machine.execPack d a s
  | .unpack d a => Sys2Proof.Machine.execUnpack d a s
  | .vdump a => Sys2Proof.Machine.execVdump a s
  | .requant d res => Sys2Proof.Machine.execRequant d res s
  | .resize d n => Sys2Proof.Machine.execResize d n s
  | .chsel d a c => Sys2Proof.Machine.execChsel d a c s
  | .trim d a start size => Sys2Proof.Machine.execTrim d a start size s
  | .pclone d a => Sys2Proof.Machine.execPclone d a s
  | .norm d t => Sys2Proof.Machine.execNorm d t s
  | .morph d a b num den => Sys2Proof.Machine.execMorph d a b num den s
  | .wtclr => Sys2Proof.Machine.execWtclr s
  | .wtins slot a => Sys2Proof.Machine.execWtins slot a s
  | .wtfill => Sys2Proof.Machine.execWtfill s
  | .wtser d => Sys2Proof.Machine.execWtser d s
  | .wtemit slotbyte a => Sys2Proof.Machine.execWtemit slotbyte a s
  | .wtraw => Sys2Proof.Machine.execWtraw s

end Sys2Proof.Machine
end

