-- ==== Sys2Proof/Machine/HostPort.lean ====
section
/-! DEFINITION. The host port (spec/20_memory.md rules R56, R57) and the issue of a command word (spec/30_encoding.md rules R71, R80). -/

namespace Sys2Proof.Machine

/-- `HostLoadV` is not refused (R57). -/
def loadVOk (c : Params) (i : Nat) (bytes : List Nat) : Bool :=
  decide (i < c.nv) && decide (bytes.length ≤ c.vcap) && bytes.all fun b => decide (b ≤ 255)

/-- `HostLoadV(i, bytes)` (R56); a refused load changes nothing (R57). -/
def State.hostLoadV (s : State) (i : Nat) (bytes : List Nat) : State :=
  if loadVOk s.cfg i bytes then { s with v := s.v.set i (bytes.map (BitVec.ofNat 8)) } else s

/-- The buffer a `HostLoadP` makes, `none` when its attributes or samples are refused (R56, R57). -/
def loadedBuffer (c : Params) (ch res : Nat) (samples : List Int) : Option PcmBuffer :=
  match Channels.ofNat? ch, Resolution.ofNat? res with
  | some ch, some res =>
    if samples.length ≤ c.pcap ∧ samples.length % ch.count = 0 ∧
        (samples.all fun x => decide (-2 ^ 31 ≤ x) && decide (x ≤ 2 ^ 31 - 1)) = true then
      some { spc := samples.length / ch.count, ch := ch, res := res, s := samples.map wrap32 }
    else none
  | _, _ => none

/-- `HostLoadP(i, ch, res, samples)` (R56); a refused load changes nothing (R57). -/
def State.hostLoadP (s : State) (i ch res : Nat) (samples : List Int) : State :=
  match loadedBuffer s.cfg ch res samples with
  | some b => if i < s.cfg.np then { s with p := s.p.set i b } else s
  | none => s

/-- `HostReadV(i)` (R56); a buffer that does not exist is answered as such (log 5). -/
def State.hostReadV (s : State) (i : Nat) : HostReply :=
  match s.v[i]? with
  | some x => .bytes x
  | none => .noBuffer

/-- `HostReadP(i)` (R56); a buffer that does not exist is answered as such (log 5). -/
def State.hostReadP (s : State) (i : Nat) : HostReply :=
  match s.p[i]? with
  | some b => .pcm b
  | none => .noBuffer

/-- `Reset()` (R240): every piece of state to the value of R37, `OUT` not shortened. -/
def State.hostReset (s : State) : State :=
  { s with
    v := List.replicate s.cfg.nv []
    p := List.replicate s.cfg.np PcmBuffer.default
    wt := emptyTable
    ck := 0
    status := 0 }

/-- `Issue(w)`: the block decodes the word and executes it to completion (R71); an illegal word is refused (R80). -/
def issue (w : Word) (s : State) : Outcome :=
  match decode s.cfg w with
  | .ok i => exec i s
  | .error _ => .next s.refuseIllegal

/-- One move of the host (R56). -/
def makeMove (m : HostMove) (s : State) : Outcome :=
  match m with
  | .issue w => issue w s
  | .loadV i bytes => .next (s.hostLoadV i bytes)
  | .loadP i ch res samples => .next (s.hostLoadP i ch res samples)
  | .readV i => .next (s.answer (s.hostReadV i))
  | .readP i => .next (s.answer (s.hostReadP i))
  | .readWT => .next (s.answer (.table s.wt))
  | .readCK => .next (s.answer (.checksum s.ck))
  | .readStatus => .next (s.answer (.status s.status))
  | .reset => .next s.hostReset

end Sys2Proof.Machine
end

