-- ==== Sys2Proof/Machine/Step.lean ====
section
/-! DEFINITION. One step: the host's next move, or idleness (spec/20_memory.md rules R56, R58; spec/60_exceptions.md rule R227). -/

namespace Sys2Proof.Machine

/-- One step makes the first of the host's moves; with no move to make the block is idle and keeps all state
(R227, log 3). -/
def step (s : State) : Host.Outcome State Fault Refusal :=
  match s.host with
  | [] => .next s
  | m :: rest => makeMove m (s.setHost rest)

/-- The host's next move issues the word made of the low `nbits` bits of `w`; its other moves follow (log 2). -/
def State.withFetchWord (s : State) (nbits w : Nat) : State :=
  s.setHost (.issue (tableWord nbits w) :: s.host)

end Sys2Proof.Machine
end

