-- ==== Sys2Proof/Safety.lean ====
section
/-! DEFINITION. What a safe run is: the storage invariants of spec/10_state.md (rules R21, R24, R27, R32) hold, and no step stops the block (spec/60_exceptions.md rule R220). -/

namespace Sys2Proof.Machine

/-- The invariants of a PCM buffer (R24); the ranges of `ch` and `res` are their types. -/
abbrev PcmBuffer.Wf (c : Params) (b : PcmBuffer) : Prop :=
  b.s.length = b.spc * b.ch.count ∧ b.s.length ≤ c.pcap

/-- The canonical form of the whole storage: legal parameters (R7), `NV` value buffers within `VCAP` (R21), `NP` PCM
buffers that keep R24, 16 slots of 1024 samples (R27), STATUS bits 31 to 7 zero (R32). -/
abbrev State.Wf (s : State) : Prop :=
  s.cfg.Legal ∧
  s.v.length = s.cfg.nv ∧ (∀ x ∈ s.v, x.length ≤ s.cfg.vcap) ∧
  s.p.length = s.cfg.np ∧ (∀ b ∈ s.p, b.Wf s.cfg) ∧
  s.wt.length = 16 ∧ (∀ k ∈ s.wt, k.samples.length = 1024) ∧
  s.status.toNat < 128

/-- The state after `n` steps from `s` exists and keeps the invariants: no step on the way stopped. -/
def SafeFor (n : Nat) (s : State) : Prop :=
  ∃ t, Sys2Proof.core.run n s = .next t ∧ t.Wf

/-- A command CORE can be given in this state: the storage keeps its invariants, and every register number the command
uses lies in its file (R78: a word that breaks this is illegal and never reaches `exec`). -/
abbrev Ready (s : State) (i : Instr) : Prop := s.Wf ∧ wellFormed s.cfg i = true

end Sys2Proof.Machine
end

