-- ==== Sys2Proof/Certificates/Slice0/Obligations.lean ====
section
/-! DEFINITION. The statements for the provers, after the numbered rules of spec/. The first section writes the spec's closed forms down by index, apart from the model's own functions. -/

open Sys2Proof Sys2Proof.Machine

/-! ## Closed forms of the spec, by index -/

namespace Sys2Proof.Closed

/-- The word `op << 56 | rd << 52 | ra << 48 | rb << 44 | immA << 22 | immB` as a number (R72). -/
def wordValue (op rd ra rb immA immB : Nat) : Nat :=
  op * 2 ^ 56 + rd * 2 ^ 52 + ra * 2 ^ 48 + rb * 2 ^ 44 + immA * 2 ^ 22 + immB

/-- R122 with the lowering of R124's table: `f` the floor and `r` the remainder of the unbiased value over `2^(old-new)`. -/
def requantValue (old new : Nat) (s : Int) : Int :=
  let v := if old = 8 then s - 128 else s
  let k : Int := 2 ^ (old - new)
  let f := v / k
  let r := v % k
  let t :=
    if new < old then
      max (-(2 ^ (new - 1))) (min (2 ^ (new - 1) - 1)
        (if 0 ≤ v then (if 2 * r ≥ k then f + 1 else f) else (if 2 * r ≥ k then f else f - 1)))
    else v * 2 ^ (new - old)
  if new = 8 then (t + 128) % 256 else t

/-- R139: the mean of the low 16 bits of two samples, halved toward zero. -/
def meanOf (a b : Sample) : Sample :=
  BitVec.ofInt 32 (Int.tdiv ((a.setWidth 16).toInt + (b.setWidth 16).toInt) 2)

/-- Sample `i` of a channel after `r` growth rounds (R138). -/
def grownAt (x : Nat → Sample) : Nat → Nat → Sample
  | 0, i => x i
  | r + 1, i =>
    if i % 2 = 0 then grownAt x r (i / 2) else meanOf (grownAt x r (i / 2)) (grownAt x r (i / 2 + 1))

/-- The size of a channel of `n` samples after `r` growth rounds: `2^r * (n - 1) + 1` (R138). -/
def grownSize (n r : Nat) : Nat := 2 ^ r * (n - 1) + 1

/-- `r` is the least number of rounds that brings `n` samples to `target` or more (R135, R138). -/
def LeastRounds (n target r : Nat) : Prop :=
  target ≤ grownSize n r ∧ ∀ q < r, grownSize n q < target

/-- `m` is the peak: it bounds the absolute value of every sample, and is one of them or 0 (R165). -/
def IsPeak (x : List Sample) (m : Nat) : Prop :=
  (∀ y ∈ x, y.toInt.natAbs ≤ m) ∧ (m = 0 ∨ ∃ y ∈ x, y.toInt.natAbs = m)

/-- Sample `x` stands in a byte stream at place `i`, high byte first (R192). -/
def SampleAt (y : List Byte) (i : Nat) (x : Sample16) : Prop :=
  y[i]? = some (x.extractLsb' 8 8) ∧ y[i + 1]? = some (x.extractLsb' 0 8)

/-- The 16-bit interpolation `trunc((a * q + (b - a) * p) / q)` of R186. -/
def interpOf (a b : Sample16) (p q : Nat) : Sample16 :=
  BitVec.ofInt 16 (Int.tdiv (a.toInt * q + (b.toInt - a.toInt) * p) q)

/-- The value buffer a command writes (R50). -/
def vDest : Instr → Option RegField
  | .pack d _ => some d
  | .unpack d _ => some d
  | .wtser d => some d
  | _ => none

/-- The PCM buffer a command writes (R50). -/
def pDest : Instr → Option RegField
  | .requant d _ => some d
  | .resize d _ => some d
  | .chsel d _ _ => some d
  | .trim d _ _ _ => some d
  | .pclone d _ => some d
  | .norm d _ => some d
  | .morph d _ _ _ _ => some d
  | _ => none

/-- The commands that write `WT` (R50). -/
def writesWt : Instr → Bool
  | .wtclr => true
  | .wtins _ _ => true
  | .wtfill => true
  | _ => false

/-- The commands that write `CK` (R29, R50). -/
def writesCk : Instr → Bool
  | .wtser _ => true
  | .wtemit _ _ => true
  | _ => false

/-- The commands that append to `OUT` (R31, R50). -/
def appendsOut : Instr → Bool
  | .vdump _ => true
  | .wtemit _ _ => true
  | .wtraw => true
  | _ => false

end Sys2Proof.Closed

open Sys2Proof.Closed

/-! ## The command word -/

/-- R72, R76, R77: the word of every command, field by field. -/
def Obligations.CommandWordsFollowTheOpcodeMap : Prop :=
  ∀ (d a b : RegField) (x y : Imm),
    (encode .nop).toNat = wordValue 0x00 0 0 0 0 0 ∧
    (encode (.clrst y)).toNat = wordValue 0x01 0 0 0 0 y.toNat ∧
    (encode (.pack d a)).toNat = wordValue 0x10 d.toNat a.toNat 0 0 0 ∧
    (encode (.unpack d a)).toNat = wordValue 0x11 d.toNat a.toNat 0 0 0 ∧
    (encode (.vdump a)).toNat = wordValue 0x12 0 a.toNat 0 0 0 ∧
    (encode (.requant d y)).toNat = wordValue 0x20 d.toNat 0 0 0 y.toNat ∧
    (encode (.resize d y)).toNat = wordValue 0x21 d.toNat 0 0 0 y.toNat ∧
    (encode (.chsel d a y)).toNat = wordValue 0x22 d.toNat a.toNat 0 0 y.toNat ∧
    (encode (.trim d a x y)).toNat = wordValue 0x23 d.toNat a.toNat 0 x.toNat y.toNat ∧
    (encode (.pclone d a)).toNat = wordValue 0x24 d.toNat a.toNat 0 0 0 ∧
    (encode (.norm d y)).toNat = wordValue 0x25 d.toNat 0 0 0 y.toNat ∧
    (encode (.morph d a b x y)).toNat = wordValue 0x26 d.toNat a.toNat b.toNat x.toNat y.toNat ∧
    (encode .wtclr).toNat = wordValue 0x30 0 0 0 0 0 ∧
    (encode (.wtins y a)).toNat = wordValue 0x31 0 a.toNat 0 0 y.toNat ∧
    (encode .wtfill).toNat = wordValue 0x32 0 0 0 0 0 ∧
    (encode (.wtser d)).toNat = wordValue 0x33 d.toNat 0 0 0 0 ∧
    (encode (.wtemit y a)).toNat = wordValue 0x34 0 a.toNat 0 0 y.toNat ∧
    (encode .wtraw).toNat = wordValue 0x35 0 0 0 0 0

/-- Decoding the word of any well-formed command gives it back, for all parameters (R72, R76, R78). -/
def Obligations.DecodeOfEncodeIsTheCommand : Prop :=
  ∀ (c : Params) (i : Instr), wellFormed c i = true → decode c (encode i) = .ok i

/-- A word that decodes is the word of exactly the command it decodes to, and that command is well formed (R77, R78, R80). -/
def Obligations.EncodeOfDecodeIsTheWord : Prop :=
  ∀ (c : Params) (w : Word) (i : Instr), decode c w = .ok i → encode i = w ∧ wellFormed c i = true

/-- Words the spec writes out decode to the commands it writes beside them (R83, 95_test_vectors.md T6, T7, T9, T12). -/
def Obligations.WrittenOutWordsDecode : Prop :=
  decode Params.default 0x0000000000000000#64 = .ok .nop ∧
  decode Params.default 0x010000000000007F#64 = .ok (.clrst 0x7F) ∧
  decode Params.default 0x1010000000000000#64 = .ok (.pack 1 0) ∧
  decode Params.default 0x2310000000800003#64 = .ok (.trim 1 0 2 3) ∧
  decode Params.default 0x2620100000400003#64 = .ok (.morph 2 0 1 1 3) ∧
  decode Params.default 0x310100000000000F#64 = .ok (.wtins 15 1) ∧
  decode Params.default 0x3403000000000005#64 = .ok (.wtemit 5 3)

/-- R79, R80: a word with a reserved opcode sets `ILL` and changes nothing else, whatever its other bits (that an
`Issue` is the move at the head of `host` is the model's choice, log 2). -/
def Obligations.ReservedOpcodeSetsIllOnly : Prop :=
  ∀ (s : State) (w : Word) (rest : List HostMove), s.host = .issue w :: rest →
    (let op := w.toNat / 2 ^ 56
     (0x02 ≤ op ∧ op ≤ 0x0F) ∨ (0x13 ≤ op ∧ op ≤ 0x1F) ∨ (0x27 ≤ op ∧ op ≤ 0x2F) ∨ 0x36 ≤ op) →
    step s = .next { s with host := rest, status := s.status ||| 0x40#32 }

/-- R77, R80: a word with a listed opcode and a 1 in a bit its format does not use sets `ILL` and changes nothing else.
The rows are the opcodes of R76 with the masks of R73; `MORPH` (`0x26`) uses every bit, so it has no such word (the list `host` is
the model's choice, log 2). -/
def Obligations.UnusedBitSetsIllOnly : Prop :=
  ∀ (s : State) (w : Word) (rest : List HostMove), s.host = .issue w :: rest →
    ∀ row ∈ ([(0x00, 0xFFFFFFFFFFFFFFFF), (0x01, 0xFFFFFFFFFFC00000), (0x10, 0xFF00FFFFFFFFFFFF),
        (0x11, 0xFF00FFFFFFFFFFFF), (0x12, 0xFFF0FFFFFFFFFFFF), (0x20, 0xFF0FFFFFFFC00000),
        (0x21, 0xFF0FFFFFFFC00000), (0x22, 0xFF00FFFFFFC00000), (0x23, 0xFF00F00000000000),
        (0x24, 0xFF00FFFFFFFFFFFF), (0x25, 0xFF0FFFFFFFC00000),
        (0x30, 0xFFFFFFFFFFFFFFFF), (0x31, 0xFFF0FFFFFFC00000), (0x32, 0xFFFFFFFFFFFFFFFF),
        (0x33, 0xFF0FFFFFFFFFFFFF), (0x34, 0xFFF0FFFFFFC00000), (0x35, 0xFFFFFFFFFFFFFFFF)] : List (Nat × Word)),
      w.toNat / 2 ^ 56 = row.1 → w &&& row.2 ≠ BitVec.ofNat 64 (row.1 * 2 ^ 56) →
      step s = .next { s with host := rest, status := s.status ||| 0x40#32 }

/-- R78, R80: a word that uses a register field as a `V` number not below `NV` or as a `P` number not below `NP` sets
`ILL` and changes nothing else (the list `host` is the model's choice, log 2). -/
def Obligations.RegisterOutOfRangeSetsIllOnly : Prop :=
  ∀ (s : State) (w : Word) (rest : List HostMove), s.host = .issue w :: rest →
    (let op := w.toNat / 2 ^ 56
     let rd := w.toNat / 2 ^ 52 % 16
     let ra := w.toNat / 2 ^ 48 % 16
     let rb := w.toNat / 2 ^ 44 % 16
     (op ∈ [0x10, 0x11, 0x33] ∧ s.cfg.nv ≤ rd) ∨ (op ∈ [0x10, 0x11, 0x12, 0x34] ∧ s.cfg.nv ≤ ra) ∨
     (op ∈ [0x20, 0x21, 0x22, 0x23, 0x24, 0x25, 0x26] ∧ s.cfg.np ≤ rd) ∨
     (op ∈ [0x22, 0x23, 0x24, 0x26, 0x31] ∧ s.cfg.np ≤ ra) ∨ (op = 0x26 ∧ s.cfg.np ≤ rb)) →
    step s = .next { s with host := rest, status := s.status ||| 0x40#32 }

/-! ## Steps and runs -/

/-- A step whose move issues a word that decodes runs exactly the decoded command, and the word `withFetchWord` places
is the one the next step runs (the list of host moves is the model's: log 2). -/
def Obligations.StepRunsTheDecodedCommand : Prop :=
  (∀ (s : State) (w : Word) (rest : List HostMove) (i : Instr), s.host = .issue w :: rest →
    decode s.cfg w = .ok i → step s = exec i { s with host := rest }) ∧
  (∀ (s : State) (n : Nat) (i : Instr), n < 2 ^ 64 → decode s.cfg (BitVec.ofNat 64 n) = .ok i →
    step (s.withFetchWord 64 n) = exec i s)

/-- With no move of the host the block is idle and keeps all state (R227; that idleness is a step is log 3, and the list
`host` is log 2). -/
def Obligations.IdleBlockKeepsAllState : Prop :=
  ∀ s : State, s.host = [] → step s = .next s

/-- Every step keeps the storage invariants R21, R24, R27, R32 and the legality of the parameters. -/
def Obligations.EveryStepKeepsTheStorageInvariants : Prop :=
  ∀ s t : State, s.Wf → step s = .next t → t.Wf

/-- The reset state has the storage invariants, for every legal choice of the parameters. -/
def Obligations.ResetStateHasTheStorageInvariants : Prop :=
  State.reset.Wf ∧ ∀ c : Params, c.Legal → (State.resetWith c).Wf

/-- R220: every command finishes, in every state and with every operand, and no run ever stops: from every state with
the invariants, any number of steps answers a next state, which has the invariants again. -/
def Obligations.NoRunEverStops : Prop :=
  (∀ (i : Instr) (s : State), ∃ t, exec i s = .next t) ∧ ∀ (s : State) (n : Nat), s.Wf → SafeFor n s

/-- R31: no step takes a byte of `OUT` back or reorders it. -/
def Obligations.OutOnlyGrows : Prop :=
  ∀ s t : State, step s = .next t → ∃ x, t.out = s.out ++ x

/-! ## Which state a command can write -/

/-- R29, R31, R50, R159: each command writes at most its destination buffer and the registers listed for it. That no
command changes `cfg`, `host` or `replies` is said of the model's own fields, its choices of logs 1, 2 and 4. -/
def Obligations.CommandsWriteOnlyTheirDestinations : Prop :=
  ∀ (i : Instr) (s t : State), exec i s = .next t →
    (∀ k, (∀ d, vDest i = some d → k ≠ d.toNat) → t.v[k]? = s.v[k]?) ∧ t.v.length = s.v.length ∧
    (∀ k, (∀ d, pDest i = some d → k ≠ d.toNat) → t.p[k]? = s.p[k]?) ∧ t.p.length = s.p.length ∧
    (writesWt i = false → t.wt = s.wt) ∧ (writesCk i = false → t.ck = s.ck) ∧
    (appendsOut i = false → t.out = s.out) ∧
    t.cfg = s.cfg ∧ t.host = s.host ∧ t.replies = s.replies

/-- R33: no command other than `CLRST` sets a flag to 0. -/
def Obligations.FlagsAreSticky : Prop :=
  ∀ (i : Instr) (s t : State), exec i s = .next t → (∀ m, i ≠ .clrst m) →
    ∀ k, s.status.getLsbD k = true → t.status.getLsbD k = true

/-- R33: no command reads a flag, and a flag changes no data result. -/
def Obligations.FlagsNeverChangeData : Prop :=
  ∀ (i : Instr) (s t : State) (st : BitVec 32), exec i s = .next t →
    ∃ st', exec i { s with status := st } = .next { t with status := st' }

/-! ## System commands -/

/-- R210: `NOP` changes nothing; its word is 0, and any other word with opcode 0 is illegal. -/
def Obligations.NopChangesNothing : Prop :=
  (∀ s : State, exec .nop s = .next s) ∧
  (∀ (c : Params) (w : Word), decode c w = .ok .nop ↔ w = 0) ∧
  (∀ (c : Params) (w : Word), w.toNat / 2 ^ 56 = 0 → w ≠ 0 → ∃ e, decode c w = .error e)

/-- R211: `CLRST` clears exactly the STATUS bits its mask names; bits 21 to 7 of the mask have no effect. -/
def Obligations.ClrstClearsTheFlagsOfItsMask : Prop :=
  ∀ (m : Imm) (s : State), s.Wf →
    (encode (.clrst m)).toNat = wordValue 0x01 0 0 0 0 m.toNat ∧
    ∃ st, exec (.clrst m) s = .next { s with status := st } ∧
      (∀ k < 32, st.getLsbD k = (s.status.getLsbD k && !(m.getLsbD k))) ∧
      st = s.status &&& ~~~((m &&& 0x7F#22).setWidth 32)

/-! ## The byte packing codec -/

/-- R84, R100, R101, R102: `PACK`. -/
def Obligations.PackStoresTheRunsOfSeven : Prop :=
  ∀ (d a : RegField) (s : State), Ready s (.pack d a) →
    (encode (.pack d a)).toNat = wordValue 0x10 d.toNat a.toNat 0 0 0 ∧
    ∃ y : List Byte,
      exec (.pack d a) s = .next { s with
        v := s.v.set d.toNat (y.take s.cfg.vcap)
        status := s.status ||| (if s.cfg.vcap < y.length then 0x01#32 else 0#32) } ∧
      y.length = (s.readV a).length + ((s.readV a).length + 6) / 7 ∧
      (∀ g, 7 * g < (s.readV a).length → ∃ pb, y[8 * g]? = some pb ∧
        ∀ k < 8, pb.getLsbD k = (decide (k < 7) && ((s.readV a).getD (7 * g + k) 0).getLsbD 7)) ∧
      (∀ g k, k < 7 → 7 * g + k < (s.readV a).length →
        y[8 * g + 1 + k]? = some ((s.readV a).getD (7 * g + k) 0 &&& 0x7F#8)) ∧
      (∀ b ∈ y, b.toNat ≤ 0x7F)

/-- R104, R105, R106: `UNPACK`; the capacity is never reached. -/
def Obligations.UnpackTakesTheHighBitsOfThePackBytes : Prop :=
  ∀ (d a : RegField) (s : State), Ready s (.unpack d a) →
    (encode (.unpack d a)).toNat = wordValue 0x11 d.toNat a.toNat 0 0 0 ∧
    ∃ y : List Byte,
      exec (.unpack d a) s = .next { s with v := s.v.set d.toNat y } ∧
      y.length = (s.readV a).length - ((s.readV a).length + 7) / 8 ∧ y.length ≤ s.cfg.vcap ∧
      (∀ i < (s.readV a).length, i % 8 ≠ 0 →
        y[i - i / 8 - 1]? = some (((s.readV a).getD i 0 &&& 0x7F#8) |||
          (if ((s.readV a).getD (i - i % 8) 0).getLsbD (i % 8 - 1) then 0x80#8 else 0#8)))

/-- R107: unpacking what `PACK` stored gives the source back, at every length whose packed form fits. -/
def Obligations.UnpackUndoesPack : Prop :=
  ∀ (d a e : RegField) (s : State), Ready s (.pack d a) → Ready s (.unpack e d) →
    (s.readV a).length + ((s.readV a).length + 6) / 7 ≤ s.cfg.vcap →
    ∃ t, exec (.pack d a) s = .next t ∧
      exec (.unpack e d) t = .next { t with v := t.v.set e.toNat (s.readV a) }

/-- R89, R108: `VDUMP`. -/
def Obligations.VdumpAppendsTheBuffer : Prop :=
  ∀ (a : RegField) (s : State), Ready s (.vdump a) →
    (encode (.vdump a)).toNat = wordValue 0x12 0 a.toNat 0 0 0 ∧
    ∃ x, s.v[a.toNat]? = some x ∧ exec (.vdump a) s = .next { s with out := s.out ++ x }

/-! ## The requantizer -/

/-- R120, R122, R124: `REQUANT` to a legal resolution. -/
def Obligations.RequantConvertsEverySample : Prop :=
  ∀ (d : RegField) (res : Imm) (s : State), Ready s (.requant d res) →
    (res.toNat = 8 ∨ res.toNat = 16 ∨ res.toNat = 24 ∨ res.toNat = 32) →
    (encode (.requant d res)).toNat = wordValue 0x20 d.toNat 0 0 0 res.toNat ∧
    ∃ new : Resolution, new.bits = res.toNat ∧
      exec (.requant d res) s = .next { s with
        p := s.p.set d.toNat { s.readP d with
          res := new
          s := (s.readP d).s.map fun x => BitVec.ofInt 32 (requantValue (s.readP d).res.bits res.toNat x.toInt) } }

/-- R121: a resolution outside {8, 16, 24, 32} changes nothing but `IRES`. -/
def Obligations.RequantIgnoresOtherResolutions : Prop :=
  ∀ (d : RegField) (res : Imm) (s : State), Ready s (.requant d res) →
    res.toNat ≠ 8 → res.toNat ≠ 16 → res.toNat ≠ 24 → res.toNat ≠ 32 →
    exec (.requant d res) s = .next { s with status := s.status ||| 0x02#32 }

/-- R124, R125, R127: canonical samples stay canonical through `REQUANT`, and an 8-bit result is 0 to 255 whatever the
samples were. -/
def Obligations.RequantKeepsSamplesCanonical : Prop :=
  ∀ (d : RegField) (res : Imm) (s : State) (new : Resolution), Ready s (.requant d res) → new.bits = res.toNat →
    ∃ t, exec (.requant d res) s = .next t ∧ (t.readP d).res = new ∧
      ((∀ x ∈ (s.readP d).s, canonical (s.readP d).res x = true) → ∀ x ∈ (t.readP d).s, canonical new x = true) ∧
      (new = .r8 → ∀ x ∈ (t.readP d).s, x.toNat ≤ 255)

/-- R128: 8 to 16 to 8 bits and 16 to 32 to 16 bits, on canonical samples: the exact values that come back. -/
def Obligations.RequantRoundTrips : Prop :=
  ∀ (d : RegField) (s : State), Ready s (.requant d 8) →
    (∀ x ∈ (s.readP d).s, canonical (s.readP d).res x = true) →
    ((s.readP d).res = .r8 → ∃ t, exec (.requant d 16) s = .next t ∧
      exec (.requant d 8) t = .next { s with p := s.p.set d.toNat { s.readP d with
        s := (s.readP d).s.map fun x => if 1 ≤ x.toInt ∧ x.toInt ≤ 127 then x - 1 else x } }) ∧
    ((s.readP d).res = .r16 → ∃ t, exec (.requant d 32) s = .next t ∧
      exec (.requant d 16) t = .next { s with p := s.p.set d.toNat { s.readP d with
        s := (s.readP d).s.map fun x => if -32767 ≤ x.toInt ∧ x.toInt ≤ -1 then x - 1 else x } })

/-! ## The resampler -/

/-- R135, R136, R138 to R141: `RESIZE` of a buffer with at least 2 samples per channel. -/
def Obligations.ResizeGrowsThenTakesNearestIndices : Prop :=
  ∀ (d : RegField) (n : Imm) (s : State), Ready s (.resize d n) → 2 ≤ (s.readP d).spc →
    (encode (.resize d n)).toNat = wordValue 0x21 d.toNat 0 0 0 n.toNat ∧
    ∀ ch cap target : Nat, ch = (s.readP d).ch.count → cap = s.cfg.pcap / ch → target = min n.toNat cap →
      ∃ (r : Nat) (y : List Sample), LeastRounds (s.readP d).spc target r ∧
        exec (.resize d n) s = .next { s with
          p := s.p.set d.toNat { s.readP d with spc := target, s := y }
          status := s.status ||| (if cap < n.toNat then 0x01#32 else 0#32) } ∧
        y.length = target * ch ∧
        ∀ i < target, ∀ c < ch, y[i * ch + c]? =
          some (grownAt (fun j => (s.readP d).s.getD (j * ch + c) 0) r
            (min (i * grownSize (s.readP d).spc r / target) (grownSize (s.readP d).spc r - 1)))

/-- R137: fewer than 2 samples per channel: only `OVF` can change. -/
def Obligations.ResizeLeavesShortBuffersAlone : Prop :=
  ∀ (d : RegField) (n : Imm) (s : State), Ready s (.resize d n) → (s.readP d).spc < 2 →
    exec (.resize d n) s = .next { s with
      status := s.status ||| (if s.cfg.pcap / (s.readP d).ch.count < n.toNat then 0x01#32 else 0#32) }

/-- R142: a resize to the current size is the identity, and a shrink by a whole factor `f` keeps every `f`-th sample. -/
def Obligations.ResizeByWholeFactorSelects : Prop :=
  ∀ (d : RegField) (n : Imm) (f : Nat) (s : State), Ready s (.resize d n) → 2 ≤ (s.readP d).spc →
    1 ≤ n.toNat → (s.readP d).spc = f * n.toNat →
    (f = 1 → exec (.resize d n) s = .next s) ∧
    ∃ t, exec (.resize d n) s = .next t ∧ t.status = s.status ∧ (t.readP d).spc = n.toNat ∧
      ∀ i < n.toNat, ∀ c < (s.readP d).ch.count,
        (t.readP d).s[i * (s.readP d).ch.count + c]? = (s.readP d).s[i * f * (s.readP d).ch.count + c]?

/-! ## Channel extraction, trim, clone -/

/-- R150, R151: `CHSEL`. -/
def Obligations.ChselExtractsOneChannel : Prop :=
  ∀ (d a : RegField) (c : Imm) (s : State), Ready s (.chsel d a c) →
    (encode (.chsel d a c)).toNat = wordValue 0x22 d.toNat a.toNat 0 0 c.toNat ∧
    ∃ y : List Sample,
      exec (.chsel d a c) s = .next { s with
        p := s.p.set d.toNat { spc := (s.readP a).spc, ch := .mono, res := (s.readP a).res, s := y }
        status := s.status ||| (if (s.readP a).ch.count ≤ c.toNat then 0x04#32 else 0#32) } ∧
      y.length = (s.readP a).spc ∧
      ∀ k < (s.readP a).spc, y[k]? =
        (s.readP a).s[k * (s.readP a).ch.count + (if c.toNat < (s.readP a).ch.count then c.toNat else 0)]?

/-- R154: `TRIM` of a range inside the source. -/
def Obligations.TrimCopiesTheRange : Prop :=
  ∀ (d a : RegField) (start size : Imm) (s : State), Ready s (.trim d a start size) →
    start.toNat + size.toNat ≤ (s.readP a).spc →
    (encode (.trim d a start size)).toNat = wordValue 0x23 d.toNat a.toNat 0 start.toNat size.toNat ∧
    ∃ y : List Sample,
      exec (.trim d a start size) s = .next { s with
        p := s.p.set d.toNat { s.readP a with spc := size.toNat, s := y } } ∧
      y.length = size.toNat * (s.readP a).ch.count ∧
      ∀ k < size.toNat * (s.readP a).ch.count, y[k]? = (s.readP a).s[start.toNat * (s.readP a).ch.count + k]?

/-- R155: `TRIM` beyond the source gives the default buffer and `OOR`. -/
def Obligations.TrimBeyondTheSourceGivesTheDefaultBuffer : Prop :=
  ∀ (d a : RegField) (start size : Imm) (s : State), Ready s (.trim d a start size) →
    (s.readP a).spc < start.toNat + size.toNat →
    exec (.trim d a start size) s = .next { s with
      p := s.p.set d.toNat { spc := 0, ch := .mono, res := .r16, s := [] }
      status := s.status ||| 0x08#32 }

/-- R158: `PCLONE`. -/
def Obligations.PcloneCopiesTheBuffer : Prop :=
  ∀ (d a : RegField) (s : State), Ready s (.pclone d a) →
    (encode (.pclone d a)).toNat = wordValue 0x24 d.toNat a.toNat 0 0 0 ∧
    ∃ b, s.p[a.toNat]? = some b ∧ exec (.pclone d a) s = .next { s with p := s.p.set d.toNat b }

/-- R158, R159: a later in-place command on a clone leaves the original as it is. -/
def Obligations.ClonesShareNothing : Prop :=
  ∀ (d a : RegField) (x : Imm) (s : State) (i : Instr), Ready s (.pclone d a) → d ≠ a →
    (i = .requant d x ∨ i = .resize d x ∨ i = .norm d x) →
    ∃ t u, exec (.pclone d a) s = .next t ∧ exec i t = .next u ∧ u.readP a = s.readP a

/-! ## Normalize and morph -/

/-- R165, R166, R167: `NORM`. -/
def Obligations.NormScalesByTheExactFraction : Prop :=
  ∀ (d : RegField) (t : Imm) (s : State) (m : Nat), Ready s (.norm d t) → IsPeak (s.readP d).s m →
    (encode (.norm d t)).toNat = wordValue 0x25 d.toNat 0 0 0 t.toNat ∧
    exec (.norm d t) s = .next { s with
      p := s.p.set d.toNat { s.readP d with
        s := (s.readP d).s.map fun x =>
          if m = 0 then x
          else BitVec.ofInt 32 (Int.tdiv
            (x.toInt * (2 ^ ((s.readP d).res.bits - 1) - 1) * (if 32768 < t.toNat then 32768 else t.toNat : Nat))
            (32768 * m)) }
      status := s.status ||| (if 32768 < t.toNat then 0x08#32 else 0#32) }

/-- R165: on a buffer with a non-zero peak no result is larger in magnitude than full scale. -/
def Obligations.NormNeverExceedsFullScale : Prop :=
  ∀ (d : RegField) (t : Imm) (s : State), Ready s (.norm d t) → (∃ x ∈ (s.readP d).s, x ≠ 0) →
    ∃ u, exec (.norm d t) s = .next u ∧
      ∀ x ∈ (u.readP d).s, x.toInt.natAbs ≤ 2 ^ ((s.readP d).res.bits - 1) - 1

/-- R169: a second `NORM` with the same target changes nothing. -/
def Obligations.NormIsIdempotent : Prop :=
  ∀ (d : RegField) (t : Imm) (s : State), Ready s (.norm d t) →
    ∃ u, exec (.norm d t) s = .next u ∧ exec (.norm d t) u = .next u

/-- R170: `MORPH` of two buffers of one layout with a legal fraction. -/
def Obligations.MorphInterpolatesEverySample : Prop :=
  ∀ (d a b : RegField) (num den : Imm) (s : State), Ready s (.morph d a b num den) →
    den.toNat ≠ 0 → num.toNat ≤ den.toNat → (s.readP a).spc = (s.readP b).spc → (s.readP a).ch = (s.readP b).ch →
    (encode (.morph d a b num den)).toNat = wordValue 0x26 d.toNat a.toNat b.toNat num.toNat den.toNat ∧
    ∃ y : List Sample,
      exec (.morph d a b num den) s = .next { s with p := s.p.set d.toNat { s.readP a with s := y } } ∧
      y.length = (s.readP a).s.length ∧
      ∀ k < (s.readP a).s.length, y[k]? = some (BitVec.ofInt 32 (Int.tdiv
        (((s.readP a).s.getD k 0).toInt * den.toNat +
          (((s.readP b).s.getD k 0).toInt - ((s.readP a).s.getD k 0).toInt) * num.toNat) den.toNat))

/-- R171, R172, R222: `MORPH` refused: the fraction is tested first, then the layouts. -/
def Obligations.MorphRefusalsWriteOnlyAFlag : Prop :=
  ∀ (d a b : RegField) (num den : Imm) (s : State), Ready s (.morph d a b num den) →
    (den.toNat = 0 ∨ den.toNat < num.toNat →
      exec (.morph d a b num den) s = .next { s with status := s.status ||| 0x08#32 }) ∧
    (den.toNat ≠ 0 → num.toNat ≤ den.toNat →
      (s.readP a).spc ≠ (s.readP b).spc ∨ (s.readP a).ch ≠ (s.readP b).ch →
      exec (.morph d a b num den) s = .next { s with status := s.status ||| 0x10#32 })

/-- R170: every sample of a morph lies between its two sources, and the ends of the fraction give the sources. -/
def Obligations.MorphStaysBetweenItsSources : Prop :=
  ∀ (d a b : RegField) (num den : Imm) (s : State), Ready s (.morph d a b num den) →
    den.toNat ≠ 0 → num.toNat ≤ den.toNat → (s.readP a).spc = (s.readP b).spc → (s.readP a).ch = (s.readP b).ch →
    ∃ t, exec (.morph d a b num den) s = .next t ∧
      (∀ k < (s.readP a).s.length,
        min ((s.readP a).s.getD k 0).toInt ((s.readP b).s.getD k 0).toInt ≤ ((t.readP d).s.getD k 0).toInt ∧
        ((t.readP d).s.getD k 0).toInt ≤ max ((s.readP a).s.getD k 0).toInt ((s.readP b).s.getD k 0).toInt) ∧
      (num.toNat = 0 → t.readP d = s.readP a) ∧
      (num = den → t.readP d = { s.readP a with s := (s.readP b).s })

/-- R246: `MORPH` of a buffer with itself into itself, with a legal fraction, changes nothing. -/
def Obligations.MorphOfABufferWithItselfChangesNothing : Prop :=
  ∀ (d : RegField) (num den : Imm) (s : State), Ready s (.morph d d d num den) →
    den.toNat ≠ 0 → num.toNat ≤ den.toNat → exec (.morph d d d num den) s = .next s

/-! ## The wavetable store and gap fill -/

/-- R180: `WTCLR` clears every set flag and every sample, and nothing else (`CK` is not changed). -/
def Obligations.WtclrEmptiesTheTable : Prop :=
  (encode .wtclr).toNat = wordValue 0x30 0 0 0 0 0 ∧
  ∀ s : State, exec .wtclr s = .next { s with
    wt := List.replicate 16 { set := false, samples := List.replicate 1024 0 } }

/-- R181, R182, R183: `WTINS` of a mono buffer with at least 2 samples into slots 0 to 15. -/
def Obligations.WtinsStoresTheConvertedSamples : Prop :=
  ∀ (slot : Imm) (a : RegField) (s : State), Ready s (.wtins slot a) → slot.toNat ≤ 15 →
    (s.readP a).ch = .mono → 2 ≤ (s.readP a).spc →
    (encode (.wtins slot a)).toNat = wordValue 0x31 0 a.toNat 0 0 slot.toNat ∧
    ∃ (r : Nat) (w : List Sample16), LeastRounds (s.readP a).spc 1024 r ∧
      exec (.wtins slot a) s = .next { s with wt := s.wt.set slot.toNat { set := true, samples := w } } ∧
      w.length = 1024 ∧
      ∀ i < 1024, w[i]? = some (BitVec.ofInt 16 (requantValue (s.readP a).res.bits 16
        (grownAt (fun j => (s.readP a).s.getD j 0) r
          (min (i * grownSize (s.readP a).spc r / 1024) (grownSize (s.readP a).spc r - 1))).toInt))

/-- R181, R222: `WTINS` refused: the slot number is tested first, then the layout. -/
def Obligations.WtinsRefusalsWriteOnlyAFlag : Prop :=
  ∀ (slot : Imm) (a : RegField) (s : State), Ready s (.wtins slot a) →
    (15 < slot.toNat → exec (.wtins slot a) s = .next { s with status := s.status ||| 0x08#32 }) ∧
    (slot.toNat ≤ 15 → (s.readP a).ch ≠ .mono ∨ (s.readP a).spc < 2 →
      exec (.wtins slot a) s = .next { s with status := s.status ||| 0x10#32 })

/-- R182: the slot `WTINS` stores is what `PCLONE`, `RESIZE` to 1024 and `REQUANT` to 16 bits leave in a PCM buffer,
each sample cut to its low 16 bits. -/
def Obligations.WtinsIsCloneResizeRequant : Prop :=
  ∀ (slot : Imm) (a e : RegField) (s : State), Ready s (.wtins slot a) → Ready s (.pclone e a) → slot.toNat ≤ 15 →
    (s.readP a).ch = .mono → 2 ≤ (s.readP a).spc →
    ∃ t u v, exec (.pclone e a) s = .next t ∧ exec (.resize e 1024) t = .next u ∧
      exec (.requant e 16) u = .next v ∧
      exec (.wtins slot a) s = .next { s with
        wt := s.wt.set slot.toNat { set := true, samples := (v.readP e).s.map fun x => x.setWidth 16 } }

/-- R185, R186, R187: `WTFILL` with slot 0 set. -/
def Obligations.WtfillInterpolatesEveryGap : Prop :=
  ∀ s : State, s.Wf → (slotAt s.wt 0).set = true →
    (encode .wtfill).toNat = wordValue 0x32 0 0 0 0 0 ∧
    ∃ t : List Slot, exec .wtfill s = .next { s with wt := t } ∧ t.length = 16 ∧
      (∀ k < 16, (slotAt t k).set = true ∧ (slotAt t k).samples.length = 1024) ∧
      (∀ k < 16, (slotAt s.wt k).set = true → slotAt t k = slotAt s.wt k) ∧
      ((slotAt s.wt 15).set = false → slotAt t 15 = slotAt s.wt 0) ∧
      (∀ lo j hi, lo < j → j < hi → hi ≤ 15 → (slotAt s.wt lo).set = true →
        ((slotAt s.wt hi).set = true ∨ hi = 15) → (∀ m, lo < m → m < hi → (slotAt s.wt m).set = false) →
        ∀ i < 1024, (slotAt t j).samples[i]? =
          some (interpOf ((slotAt t lo).samples.getD i 0) ((slotAt t hi).samples.getD i 0) (j - lo) (hi - lo)))

/-- R185: `WTFILL` with slot 0 unset changes nothing but `INC`. -/
def Obligations.WtfillNeedsSlotZero : Prop :=
  ∀ s : State, s.Wf → (slotAt s.wt 0).set = false →
    exec .wtfill s = .next { s with status := s.status ||| 0x20#32 }

/-- R188: after `WTFILL` every slot is set, or the table is exactly as before and `INC` is set. -/
def Obligations.WtfillIsAllOrNothing : Prop :=
  ∀ s : State, s.Wf → ∃ t, exec .wtfill s = .next t ∧
    ((∀ k < 16, (slotAt t.wt k).set = true) ∨ (t.wt = s.wt ∧ t.status.getLsbD 5 = true))

/-- R185: running `WTFILL` twice is the same as running it once. -/
def Obligations.WtfillTwiceIsOnce : Prop :=
  ∀ s : State, s.Wf → ∃ t, exec .wtfill s = .next t ∧ exec .wtfill t = .next t

/-- R189: with only slot 0 set, `WTFILL` makes all 16 slots equal to slot 0. -/
def Obligations.WtfillFromSlotZeroAloneCopiesIt : Prop :=
  ∀ s : State, s.Wf → (slotAt s.wt 0).set = true → (∀ k, 1 ≤ k → k ≤ 15 → (slotAt s.wt k).set = false) →
    exec .wtfill s = .next { s with wt := List.replicate 16 (slotAt s.wt 0) }

/-! ## Serialisation and emission -/

/-- R190 to R196: `WTSER`: 98304 bytes, twelve instances a slot at four levels, high byte first, and the checksum. -/
def Obligations.WtserStoresAllLevelsAndTheChecksum : Prop :=
  ∀ (d : RegField) (s : State), Ready s (.wtser d) →
    (encode (.wtser d)).toNat = wordValue 0x33 d.toNat 0 0 0 0 ∧
    ∃ (y : List Byte) (ck : BitVec 16),
      exec (.wtser d) s = .next { s with
        v := s.v.set d.toNat y
        ck := ck
        status := s.status ||| (if ∀ k ∈ s.wt, k.set = true then 0#32 else 0x20#32) } ∧
      y.length = 98304 ∧
      (∀ k < 16,
        (∀ i < 1024, SampleAt y (6144 * k + 2 * i) ((slotAt s.wt k).samples.getD i 0)) ∧
        (∀ i < 512, SampleAt y (6144 * k + 2048 + 2 * i) ((slotAt s.wt k).samples.getD (2 * i) 0)) ∧
        (∀ c < 2, ∀ i < 256,
          SampleAt y (6144 * k + 3072 + 512 * c + 2 * i) ((slotAt s.wt k).samples.getD (4 * i) 0)) ∧
        (∀ c < 8, ∀ i < 128,
          SampleAt y (6144 * k + 4096 + 256 * c + 2 * i) ((slotAt s.wt k).samples.getD (8 * i) 0))) ∧
      ck.toNat =
        ((List.range 49152).map fun m => 256 * (y.getD (2 * m + 1) 0).toNat + (y.getD (2 * m) 0).toNat).sum % 65536

/-- R86, R197, R198: `WTEMIT`: the frame byte by byte; its payload is what `WTSER` and then `PACK` leave in a buffer. -/
def Obligations.WtemitAppendsTheFrame : Prop :=
  ∀ (n : Imm) (a : RegField) (s : State), Ready s (.wtemit n a) →
    (encode (.wtemit n a)).toNat = wordValue 0x34 0 a.toNat 0 0 n.toNat ∧
    ∃ (fr : List Byte) (ck : BitVec 16),
      exec (.wtemit n a) s = .next { s with
        ck := ck
        out := s.out ++ fr
        status := s.status ||| (if ∀ k ∈ s.wt, k.set = true then 0#32 else 0x20#32) |||
          (if n.toNat ≤ 127 ∧ ∀ b ∈ (s.readV a).take 8, b.toNat ≤ 0x7F then 0#32 else 0x08#32) } ∧
      fr.length = 112368 ∧
      fr.take 7 = [0xF0, 0x01, 0x31, 0x6A, 0x6C, 0x01, 0x6B] ∧
      fr[7]? = some (BitVec.ofNat 8 (n.toNat % 128)) ∧
      (∀ k < 8, fr[8 + k]? =
        some (if k < (s.readV a).length then BitVec.ofNat 8 (((s.readV a).getD k 0).toNat % 128) else 0x20#8)) ∧
      fr[16]? = some 0x00#8 ∧
      (∀ (d : RegField) (t u : State), d.toNat < s.cfg.nv → exec (.wtser d) s = .next t →
        exec (.pack d d) t = .next u → (fr.drop 17).take 112348 = u.readV d ∧ t.ck = ck) ∧
      fr[112365]? = some (BitVec.ofNat 8 (ck.toNat % 128)) ∧
      fr[112366]? = some (BitVec.ofNat 8 (ck.toNat / 256 % 128)) ∧
      fr[112367]? = some 0xF7#8

/-- R87: every byte of a frame strictly between the `F0` and the `F7` is at most `0x7F`. -/
def Obligations.FrameIsSevenBitBetweenItsMarkers : Prop :=
  ∀ (n : Imm) (a : RegField) (s : State), Ready s (.wtemit n a) →
    ∃ (t : State) (mid : List Byte), exec (.wtemit n a) s = .next t ∧
      t.out = s.out ++ [0xF0#8] ++ mid ++ [0xF7#8] ∧ mid.length = 112366 ∧ ∀ b ∈ mid, b.toNat ≤ 0x7F

/-- R88, R199: `WTRAW`: all 16 x 1024 samples, high byte first; no checksum is computed. -/
def Obligations.WtrawAppendsEverySample : Prop :=
  ∀ s : State, s.Wf →
    (encode .wtraw).toNat = wordValue 0x35 0 0 0 0 0 ∧
    ∃ x : List Byte,
      exec .wtraw s = .next { s with
        out := s.out ++ x
        status := s.status ||| (if ∀ k ∈ s.wt, k.set = true then 0#32 else 0x20#32) } ∧
      x.length = 32768 ∧
      ∀ k < 16, ∀ i < 1024, SampleAt x (2048 * k + 2 * i) ((slotAt s.wt k).samples.getD i 0)

/-! ## The host port and reset -/

/-- R56: host loads the port accepts. -/
def Obligations.HostLoadsWriteTheBuffer : Prop :=
  (∀ (s : State) (rest : List HostMove) (i : Nat) (x : List Nat), s.host = .loadV i x :: rest →
    i < s.cfg.nv → x.length ≤ s.cfg.vcap → (∀ b ∈ x, b ≤ 255) →
    ∃ y : List Byte, y.map BitVec.toNat = x ∧ step s = .next { s with host := rest, v := s.v.set i y }) ∧
  (∀ (s : State) (rest : List HostMove) (i : Nat) (ch : Channels) (res : Resolution) (x : List Int),
    s.host = .loadP i ch.count res.bits x :: rest → i < s.cfg.np → x.length ≤ s.cfg.pcap → x.length % ch.count = 0 →
    (∀ v ∈ x, -2 ^ 31 ≤ v ∧ v ≤ 2 ^ 31 - 1) →
    ∃ y : List Sample, y.map BitVec.toInt = x ∧ step s = .next { s with
      host := rest
      p := s.p.set i { spc := x.length / ch.count, ch := ch, res := res, s := y } })

/-- R57: a load that would break an invariant is refused and changes nothing (the move itself is used up: log 2; the form
of its payload: log 9). -/
def Obligations.RefusedHostLoadsChangeNothing : Prop :=
  (∀ (s : State) (rest : List HostMove) (i : Nat) (x : List Nat), s.host = .loadV i x :: rest →
    (s.cfg.nv ≤ i ∨ s.cfg.vcap < x.length ∨ ∃ b ∈ x, 255 < b) → step s = .next { s with host := rest }) ∧
  (∀ (s : State) (rest : List HostMove) (i ch res : Nat) (x : List Int), s.host = .loadP i ch res x :: rest →
    (s.cfg.np ≤ i ∨ (ch ≠ 1 ∧ ch ≠ 2) ∨ (res ≠ 8 ∧ res ≠ 16 ∧ res ≠ 24 ∧ res ≠ 32) ∨ s.cfg.pcap < x.length ∨
      x.length % ch ≠ 0 ∨ ∃ v ∈ x, v < -2 ^ 31 ∨ 2 ^ 31 - 1 < v) →
    step s = .next { s with host := rest })

/-- R55, R56: a host read answers with the state and changes nothing of the block. That the read is the move at
the head of `host` and is used up is the model's choice, log 2, and where the answer goes is its choice, log 4. -/
def Obligations.HostReadsAnswerAndChangeNothing : Prop :=
  ∀ (s : State) (rest : List HostMove),
    (∀ i x, s.v[i]? = some x → s.host = .readV i :: rest →
      step s = .next { s with host := rest, replies := s.replies ++ [.bytes x] }) ∧
    (∀ i b, s.p[i]? = some b → s.host = .readP i :: rest →
      step s = .next { s with host := rest, replies := s.replies ++ [.pcm b] }) ∧
    (s.host = .readWT :: rest → step s = .next { s with host := rest, replies := s.replies ++ [.table s.wt] }) ∧
    (s.host = .readCK :: rest → step s = .next { s with host := rest, replies := s.replies ++ [.checksum s.ck] }) ∧
    (s.host = .readStatus :: rest →
      step s = .next { s with host := rest, replies := s.replies ++ [.status s.status] })

/-- R37, R240: `Reset()` sets every piece of state to its reset value and does not shorten `OUT`. The list `host` is the
model's choice (log 2); that `Reset()` also keeps the parameters, the further moves and the replies is the model's reading
(log 7, DEDUCED), since R37 and R240 say it of `OUT` only. -/
def Obligations.ResetMoveRestoresTheResetValues : Prop :=
  ∀ (s : State) (rest : List HostMove), s.host = .reset :: rest →
    step s = .next { s with
      host := rest
      v := List.replicate s.cfg.nv []
      p := List.replicate s.cfg.np { spc := 0, ch := .mono, res := .r16, s := [] }
      wt := List.replicate 16 { set := false, samples := List.replicate 1024 0 }
      ck := 0
      status := 0 }

/-- R37: the values the machine starts from, with the default parameters of R7 (that `State.reset` takes the defaults is
log 1; nothing is said of `out`, `host` and `replies`, which are logs 2, 4 and 6). -/
def Obligations.ResetStateHoldsTheResetValues : Prop :=
  State.reset.v = List.replicate 4 [] ∧
  State.reset.p = List.replicate 4 { spc := 0, ch := .mono, res := .r16, s := [] } ∧
  State.reset.wt = List.replicate 16 { set := false, samples := List.replicate 1024 0 } ∧
  State.reset.ck = 0 ∧ State.reset.status = 0 ∧
  State.reset.cfg = { vcap := 131072, pcap := 65536, nv := 4, np := 4 } ∧ State.reset.cfg.Legal
end

