-- ==== Sys2Proof/Laws/State.lean ====
section
/-! SUPPORT. What each update of State leaves in each field; every lemma is true by rfl. -/

namespace Sys2Proof.Machine

variable (s : State)

/-! ## State.raise -/

@[simp] theorem State.raise_v (f : Flag) : (s.raise f).v = s.v := rfl
@[simp] theorem State.raise_p (f : Flag) : (s.raise f).p = s.p := rfl
@[simp] theorem State.raise_wt (f : Flag) : (s.raise f).wt = s.wt := rfl
@[simp] theorem State.raise_ck (f : Flag) : (s.raise f).ck = s.ck := rfl
@[simp] theorem State.raise_status (f : Flag) : (s.raise f).status = s.status ||| f.mask := rfl
@[simp] theorem State.raise_out (f : Flag) : (s.raise f).out = s.out := rfl
@[simp] theorem State.raise_cfg (f : Flag) : (s.raise f).cfg = s.cfg := rfl
@[simp] theorem State.raise_host (f : Flag) : (s.raise f).host = s.host := rfl
@[simp] theorem State.raise_replies (f : Flag) : (s.raise f).replies = s.replies := rfl

/-! ## State.raiseIf -/

@[simp] theorem State.raiseIf_v (c : Bool) (f : Flag) : (s.raiseIf c f).v = s.v := rfl
@[simp] theorem State.raiseIf_p (c : Bool) (f : Flag) : (s.raiseIf c f).p = s.p := rfl
@[simp] theorem State.raiseIf_wt (c : Bool) (f : Flag) : (s.raiseIf c f).wt = s.wt := rfl
@[simp] theorem State.raiseIf_ck (c : Bool) (f : Flag) : (s.raiseIf c f).ck = s.ck := rfl
@[simp] theorem State.raiseIf_status (c : Bool) (f : Flag) : (s.raiseIf c f).status = s.status ||| (if c then f.mask else 0) := rfl
@[simp] theorem State.raiseIf_out (c : Bool) (f : Flag) : (s.raiseIf c f).out = s.out := rfl
@[simp] theorem State.raiseIf_cfg (c : Bool) (f : Flag) : (s.raiseIf c f).cfg = s.cfg := rfl
@[simp] theorem State.raiseIf_host (c : Bool) (f : Flag) : (s.raiseIf c f).host = s.host := rfl
@[simp] theorem State.raiseIf_replies (c : Bool) (f : Flag) : (s.raiseIf c f).replies = s.replies := rfl

/-! ## State.clearFlags -/

@[simp] theorem State.clearFlags_v (m : Imm) : (s.clearFlags m).v = s.v := rfl
@[simp] theorem State.clearFlags_p (m : Imm) : (s.clearFlags m).p = s.p := rfl
@[simp] theorem State.clearFlags_wt (m : Imm) : (s.clearFlags m).wt = s.wt := rfl
@[simp] theorem State.clearFlags_ck (m : Imm) : (s.clearFlags m).ck = s.ck := rfl
@[simp] theorem State.clearFlags_status (m : Imm) : (s.clearFlags m).status = s.status &&& ~~~(m.setWidth 32) := rfl
@[simp] theorem State.clearFlags_out (m : Imm) : (s.clearFlags m).out = s.out := rfl
@[simp] theorem State.clearFlags_cfg (m : Imm) : (s.clearFlags m).cfg = s.cfg := rfl
@[simp] theorem State.clearFlags_host (m : Imm) : (s.clearFlags m).host = s.host := rfl
@[simp] theorem State.clearFlags_replies (m : Imm) : (s.clearFlags m).replies = s.replies := rfl

/-! ## State.writeV -/

@[simp] theorem State.writeV_v (r : RegField) (x : List Byte) : (s.writeV r x).v = s.v.set r.toNat x := rfl
@[simp] theorem State.writeV_p (r : RegField) (x : List Byte) : (s.writeV r x).p = s.p := rfl
@[simp] theorem State.writeV_wt (r : RegField) (x : List Byte) : (s.writeV r x).wt = s.wt := rfl
@[simp] theorem State.writeV_ck (r : RegField) (x : List Byte) : (s.writeV r x).ck = s.ck := rfl
@[simp] theorem State.writeV_status (r : RegField) (x : List Byte) : (s.writeV r x).status = s.status := rfl
@[simp] theorem State.writeV_out (r : RegField) (x : List Byte) : (s.writeV r x).out = s.out := rfl
@[simp] theorem State.writeV_cfg (r : RegField) (x : List Byte) : (s.writeV r x).cfg = s.cfg := rfl
@[simp] theorem State.writeV_host (r : RegField) (x : List Byte) : (s.writeV r x).host = s.host := rfl
@[simp] theorem State.writeV_replies (r : RegField) (x : List Byte) : (s.writeV r x).replies = s.replies := rfl

/-! ## State.storeV -/

@[simp] theorem State.storeV_v (r : RegField) (y : List Byte) : (s.storeV r y).v = s.v.set r.toNat (y.take s.cfg.vcap) := rfl
@[simp] theorem State.storeV_p (r : RegField) (y : List Byte) : (s.storeV r y).p = s.p := rfl
@[simp] theorem State.storeV_wt (r : RegField) (y : List Byte) : (s.storeV r y).wt = s.wt := rfl
@[simp] theorem State.storeV_ck (r : RegField) (y : List Byte) : (s.storeV r y).ck = s.ck := rfl
@[simp] theorem State.storeV_status (r : RegField) (y : List Byte) : (s.storeV r y).status = s.status ||| (if decide (s.cfg.vcap < y.length) then Flag.ovf.mask else 0) := rfl
@[simp] theorem State.storeV_out (r : RegField) (y : List Byte) : (s.storeV r y).out = s.out := rfl
@[simp] theorem State.storeV_cfg (r : RegField) (y : List Byte) : (s.storeV r y).cfg = s.cfg := rfl
@[simp] theorem State.storeV_host (r : RegField) (y : List Byte) : (s.storeV r y).host = s.host := rfl
@[simp] theorem State.storeV_replies (r : RegField) (y : List Byte) : (s.storeV r y).replies = s.replies := rfl

/-! ## State.writeP -/

@[simp] theorem State.writeP_v (r : RegField) (b : PcmBuffer) : (s.writeP r b).v = s.v := rfl
@[simp] theorem State.writeP_p (r : RegField) (b : PcmBuffer) : (s.writeP r b).p = s.p.set r.toNat b := rfl
@[simp] theorem State.writeP_wt (r : RegField) (b : PcmBuffer) : (s.writeP r b).wt = s.wt := rfl
@[simp] theorem State.writeP_ck (r : RegField) (b : PcmBuffer) : (s.writeP r b).ck = s.ck := rfl
@[simp] theorem State.writeP_status (r : RegField) (b : PcmBuffer) : (s.writeP r b).status = s.status := rfl
@[simp] theorem State.writeP_out (r : RegField) (b : PcmBuffer) : (s.writeP r b).out = s.out := rfl
@[simp] theorem State.writeP_cfg (r : RegField) (b : PcmBuffer) : (s.writeP r b).cfg = s.cfg := rfl
@[simp] theorem State.writeP_host (r : RegField) (b : PcmBuffer) : (s.writeP r b).host = s.host := rfl
@[simp] theorem State.writeP_replies (r : RegField) (b : PcmBuffer) : (s.writeP r b).replies = s.replies := rfl

/-! ## State.setWt -/

@[simp] theorem State.setWt_v (t : List Slot) : (s.setWt t).v = s.v := rfl
@[simp] theorem State.setWt_p (t : List Slot) : (s.setWt t).p = s.p := rfl
@[simp] theorem State.setWt_wt (t : List Slot) : (s.setWt t).wt = t := rfl
@[simp] theorem State.setWt_ck (t : List Slot) : (s.setWt t).ck = s.ck := rfl
@[simp] theorem State.setWt_status (t : List Slot) : (s.setWt t).status = s.status := rfl
@[simp] theorem State.setWt_out (t : List Slot) : (s.setWt t).out = s.out := rfl
@[simp] theorem State.setWt_cfg (t : List Slot) : (s.setWt t).cfg = s.cfg := rfl
@[simp] theorem State.setWt_host (t : List Slot) : (s.setWt t).host = s.host := rfl
@[simp] theorem State.setWt_replies (t : List Slot) : (s.setWt t).replies = s.replies := rfl

/-! ## State.setCk -/

@[simp] theorem State.setCk_v (x : BitVec 16) : (s.setCk x).v = s.v := rfl
@[simp] theorem State.setCk_p (x : BitVec 16) : (s.setCk x).p = s.p := rfl
@[simp] theorem State.setCk_wt (x : BitVec 16) : (s.setCk x).wt = s.wt := rfl
@[simp] theorem State.setCk_ck (x : BitVec 16) : (s.setCk x).ck = x := rfl
@[simp] theorem State.setCk_status (x : BitVec 16) : (s.setCk x).status = s.status := rfl
@[simp] theorem State.setCk_out (x : BitVec 16) : (s.setCk x).out = s.out := rfl
@[simp] theorem State.setCk_cfg (x : BitVec 16) : (s.setCk x).cfg = s.cfg := rfl
@[simp] theorem State.setCk_host (x : BitVec 16) : (s.setCk x).host = s.host := rfl
@[simp] theorem State.setCk_replies (x : BitVec 16) : (s.setCk x).replies = s.replies := rfl

/-! ## State.emit -/

@[simp] theorem State.emit_v (x : List Byte) : (s.emit x).v = s.v := rfl
@[simp] theorem State.emit_p (x : List Byte) : (s.emit x).p = s.p := rfl
@[simp] theorem State.emit_wt (x : List Byte) : (s.emit x).wt = s.wt := rfl
@[simp] theorem State.emit_ck (x : List Byte) : (s.emit x).ck = s.ck := rfl
@[simp] theorem State.emit_status (x : List Byte) : (s.emit x).status = s.status := rfl
@[simp] theorem State.emit_out (x : List Byte) : (s.emit x).out = s.out ++ x := rfl
@[simp] theorem State.emit_cfg (x : List Byte) : (s.emit x).cfg = s.cfg := rfl
@[simp] theorem State.emit_host (x : List Byte) : (s.emit x).host = s.host := rfl
@[simp] theorem State.emit_replies (x : List Byte) : (s.emit x).replies = s.replies := rfl

/-! ## State.setHost -/

@[simp] theorem State.setHost_v (h : List HostMove) : (s.setHost h).v = s.v := rfl
@[simp] theorem State.setHost_p (h : List HostMove) : (s.setHost h).p = s.p := rfl
@[simp] theorem State.setHost_wt (h : List HostMove) : (s.setHost h).wt = s.wt := rfl
@[simp] theorem State.setHost_ck (h : List HostMove) : (s.setHost h).ck = s.ck := rfl
@[simp] theorem State.setHost_status (h : List HostMove) : (s.setHost h).status = s.status := rfl
@[simp] theorem State.setHost_out (h : List HostMove) : (s.setHost h).out = s.out := rfl
@[simp] theorem State.setHost_cfg (h : List HostMove) : (s.setHost h).cfg = s.cfg := rfl
@[simp] theorem State.setHost_host (h : List HostMove) : (s.setHost h).host = h := rfl
@[simp] theorem State.setHost_replies (h : List HostMove) : (s.setHost h).replies = s.replies := rfl

/-! ## State.answer -/

@[simp] theorem State.answer_v (r : HostReply) : (s.answer r).v = s.v := rfl
@[simp] theorem State.answer_p (r : HostReply) : (s.answer r).p = s.p := rfl
@[simp] theorem State.answer_wt (r : HostReply) : (s.answer r).wt = s.wt := rfl
@[simp] theorem State.answer_ck (r : HostReply) : (s.answer r).ck = s.ck := rfl
@[simp] theorem State.answer_status (r : HostReply) : (s.answer r).status = s.status := rfl
@[simp] theorem State.answer_out (r : HostReply) : (s.answer r).out = s.out := rfl
@[simp] theorem State.answer_cfg (r : HostReply) : (s.answer r).cfg = s.cfg := rfl
@[simp] theorem State.answer_host (r : HostReply) : (s.answer r).host = s.host := rfl
@[simp] theorem State.answer_replies (r : HostReply) : (s.answer r).replies = s.replies ++ [r] := rfl

/-! ## State.refuseIllegal -/

@[simp] theorem State.refuseIllegal_v : s.refuseIllegal.v = s.v := rfl
@[simp] theorem State.refuseIllegal_p : s.refuseIllegal.p = s.p := rfl
@[simp] theorem State.refuseIllegal_wt : s.refuseIllegal.wt = s.wt := rfl
@[simp] theorem State.refuseIllegal_ck : s.refuseIllegal.ck = s.ck := rfl
@[simp] theorem State.refuseIllegal_status : s.refuseIllegal.status = s.status ||| Flag.ill.mask := rfl
@[simp] theorem State.refuseIllegal_out : s.refuseIllegal.out = s.out := rfl
@[simp] theorem State.refuseIllegal_cfg : s.refuseIllegal.cfg = s.cfg := rfl
@[simp] theorem State.refuseIllegal_host : s.refuseIllegal.host = s.host := rfl
@[simp] theorem State.refuseIllegal_replies : s.refuseIllegal.replies = s.replies := rfl

/-! ## State.hostReset -/

@[simp] theorem State.hostReset_v : s.hostReset.v = List.replicate s.cfg.nv [] := rfl
@[simp] theorem State.hostReset_p : s.hostReset.p = List.replicate s.cfg.np PcmBuffer.default := rfl
@[simp] theorem State.hostReset_wt : s.hostReset.wt = emptyTable := rfl
@[simp] theorem State.hostReset_ck : s.hostReset.ck = 0 := rfl
@[simp] theorem State.hostReset_status : s.hostReset.status = 0 := rfl
@[simp] theorem State.hostReset_out : s.hostReset.out = s.out := rfl
@[simp] theorem State.hostReset_cfg : s.hostReset.cfg = s.cfg := rfl
@[simp] theorem State.hostReset_host : s.hostReset.host = s.host := rfl
@[simp] theorem State.hostReset_replies : s.hostReset.replies = s.replies := rfl

/-! ## State.resetWith -/

@[simp] theorem State.resetWith_v (c : Params) : (State.resetWith c).v = List.replicate c.nv [] := rfl
@[simp] theorem State.resetWith_p (c : Params) : (State.resetWith c).p = List.replicate c.np PcmBuffer.default := rfl
@[simp] theorem State.resetWith_wt (c : Params) : (State.resetWith c).wt = emptyTable := rfl
@[simp] theorem State.resetWith_ck (c : Params) : (State.resetWith c).ck = 0 := rfl
@[simp] theorem State.resetWith_status (c : Params) : (State.resetWith c).status = 0 := rfl
@[simp] theorem State.resetWith_out (c : Params) : (State.resetWith c).out = [] := rfl
@[simp] theorem State.resetWith_cfg (c : Params) : (State.resetWith c).cfg = c := rfl
@[simp] theorem State.resetWith_host (c : Params) : (State.resetWith c).host = [] := rfl
@[simp] theorem State.resetWith_replies (c : Params) : (State.resetWith c).replies = [] := rfl

end Sys2Proof.Machine
end

