-- ==== Sys2Proof/Laws/Ops.lean ====
section
/-! SUPPORT. What the shared operations do: read after write, the flags, and that every one of them keeps the canonical form of the storage (State.Wf). -/

namespace Sys2Proof.Machine

/-! ## The parts of the canonical form -/

theorem State.Wf.legal {s : State} (h : s.Wf) : s.cfg.Legal := h.1
theorem State.Wf.v_length {s : State} (h : s.Wf) : s.v.length = s.cfg.nv := h.2.1
theorem State.Wf.v_bound {s : State} (h : s.Wf) : ∀ x ∈ s.v, x.length ≤ s.cfg.vcap := h.2.2.1
theorem State.Wf.p_length {s : State} (h : s.Wf) : s.p.length = s.cfg.np := h.2.2.2.1
theorem State.Wf.p_wf {s : State} (h : s.Wf) : ∀ b ∈ s.p, b.Wf s.cfg := h.2.2.2.2.1
theorem State.Wf.wt_length {s : State} (h : s.Wf) : s.wt.length = 16 := h.2.2.2.2.2.1
theorem State.Wf.slot_length {s : State} (h : s.Wf) : ∀ k ∈ s.wt, k.samples.length = 1024 := h.2.2.2.2.2.2.1
theorem State.Wf.status_lt {s : State} (h : s.Wf) : s.status.toNat < 128 := h.2.2.2.2.2.2.2

theorem PcmBuffer.default_wf (c : Params) : PcmBuffer.default.Wf c :=
  ⟨rfl, Nat.zero_le _⟩

/-! ## Read after write -/

theorem State.readV_writeV_same (s : State) (r : RegField) (x : List Byte) (h : r.toNat < s.v.length) :
    (s.writeV r x).readV r = x := by
  simp [State.readV, h]

theorem State.readV_writeV_other (s : State) (r q : RegField) (x : List Byte) (h : q ≠ r) :
    (s.writeV r x).readV q = s.readV q := by
  have : r.toNat ≠ q.toNat := fun e => h (BitVec.eq_of_toNat_eq e.symm)
  simp [State.readV, List.getElem?_set_ne this]

theorem State.readP_writeP_same (s : State) (r : RegField) (b : PcmBuffer) (h : r.toNat < s.p.length) :
    (s.writeP r b).readP r = b := by
  simp [State.readP, h]

theorem State.readP_writeP_other (s : State) (r q : RegField) (b : PcmBuffer) (h : q ≠ r) :
    (s.writeP r b).readP q = s.readP q := by
  have : r.toNat ≠ q.toNat := fun e => h (BitVec.eq_of_toNat_eq e.symm)
  simp [State.readP, List.getElem?_set_ne this]

theorem State.readV_length_le {s : State} (h : s.Wf) (r : RegField) : (s.readV r).length ≤ s.cfg.vcap := by
  by_cases hr : r.toNat < s.v.length
  · simpa [State.readV, hr] using h.v_bound _ (List.getElem_mem hr)
  · simp [State.readV, hr]

theorem State.readP_wf {s : State} (h : s.Wf) (r : RegField) : (s.readP r).Wf s.cfg := by
  by_cases hr : r.toNat < s.p.length
  · have := h.p_wf _ (List.getElem_mem hr)
    simpa [State.readP, hr] using this
  · have : s.readP r = PcmBuffer.default := by simp [State.readP, hr]
    rw [this]; exact PcmBuffer.default_wf _

/-! ## Flags -/

theorem Flag.mask_toNat_lt (f : Flag) : f.mask.toNat < 128 := by cases f <;> decide

theorem status_or_lt {x y : BitVec 32} (hx : x.toNat < 128) (hy : y.toNat < 128) : (x ||| y).toNat < 128 := by
  rw [BitVec.toNat_or]; exact Nat.or_lt_two_pow (n := 7) hx hy

theorem status_and_lt {x y : BitVec 32} (hx : x.toNat < 128) : (x &&& y).toNat < 128 := by
  rw [BitVec.toNat_and]; exact Nat.lt_of_le_of_lt Nat.and_le_left hx

/-- A raised flag reads 1 afterwards, and every other bit of STATUS keeps its value (R33). -/
theorem State.raise_getLsbD (s : State) (f : Flag) (k : Nat) :
    (s.raise f).status.getLsbD k = (s.status.getLsbD k || decide (k = f.bit)) := by
  rw [State.raise_status, BitVec.getLsbD_or]
  congr 1
  by_cases hk : k < 32
  · interval_cases k <;> cases f <;> rfl
  · rw [BitVec.getLsbD_of_ge _ _ (by omega)]
    have : f.bit < 32 := by cases f <;> decide
    simp; omega

/-! ## Every operation keeps the canonical form -/

theorem State.Wf.raise {s : State} (h : s.Wf) (f : Flag) : (s.raise f).Wf :=
  ⟨h.legal, h.v_length, h.v_bound, h.p_length, h.p_wf, h.wt_length, h.slot_length,
    status_or_lt h.status_lt f.mask_toNat_lt⟩

theorem State.Wf.raiseIf {s : State} (h : s.Wf) (c : Bool) (f : Flag) : (s.raiseIf c f).Wf := by
  refine ⟨h.legal, h.v_length, h.v_bound, h.p_length, h.p_wf, h.wt_length, h.slot_length,
    status_or_lt h.status_lt ?_⟩
  cases c
  · simp
  · exact f.mask_toNat_lt

theorem State.Wf.clearFlags {s : State} (h : s.Wf) (m : Imm) : (s.clearFlags m).Wf :=
  ⟨h.legal, h.v_length, h.v_bound, h.p_length, h.p_wf, h.wt_length, h.slot_length, status_and_lt h.status_lt⟩

theorem State.Wf.writeV {s : State} (h : s.Wf) (r : RegField) {x : List Byte} (hx : x.length ≤ s.cfg.vcap) :
    (s.writeV r x).Wf := by
  refine ⟨h.legal, by simpa using h.v_length, fun y hy => ?_, h.p_length, h.p_wf, h.wt_length, h.slot_length, h.status_lt⟩
  rcases List.mem_or_eq_of_mem_set hy with hy | rfl
  · exact h.v_bound y hy
  · exact hx

/-- The store of a value buffer cuts its argument at `VCAP`, so it needs no hypothesis on it (R102, R106). -/
theorem State.Wf.storeV {s : State} (h : s.Wf) (r : RegField) (y : List Byte) : (s.storeV r y).Wf :=
  (h.raiseIf _ _).writeV r (by simp)

theorem State.Wf.writeP {s : State} (h : s.Wf) (r : RegField) {b : PcmBuffer} (hb : b.Wf s.cfg) : (s.writeP r b).Wf := by
  refine ⟨h.legal, h.v_length, h.v_bound, by simpa using h.p_length, fun y hy => ?_, h.wt_length, h.slot_length, h.status_lt⟩
  rcases List.mem_or_eq_of_mem_set hy with hy | rfl
  · exact h.p_wf y hy
  · exact hb

theorem State.Wf.setWt {s : State} (h : s.Wf) {t : List Slot} (hl : t.length = 16)
    (hk : ∀ k ∈ t, k.samples.length = 1024) : (s.setWt t).Wf :=
  ⟨h.legal, h.v_length, h.v_bound, h.p_length, h.p_wf, hl, hk, h.status_lt⟩

theorem State.Wf.setCk {s : State} (h : s.Wf) (x : BitVec 16) : (s.setCk x).Wf := h
theorem State.Wf.emit {s : State} (h : s.Wf) (x : List Byte) : (s.emit x).Wf := h
theorem State.Wf.setHost {s : State} (h : s.Wf) (m : List HostMove) : (s.setHost m).Wf := h
theorem State.Wf.answer {s : State} (h : s.Wf) (r : HostReply) : (s.answer r).Wf := h

/-! ## The wavetable -/

theorem Slot.empty_samples_length : Slot.empty.samples.length = 1024 := List.length_replicate

theorem emptyTable_length : emptyTable.length = 16 := List.length_replicate

theorem emptyTable_slot_length : ∀ k ∈ emptyTable, k.samples.length = 1024 := by
  intro k hk
  rw [List.eq_of_mem_replicate hk]
  exact Slot.empty_samples_length

theorem slotAt_samples_length {t : List Slot} (h : ∀ k ∈ t, k.samples.length = 1024) (k : Nat) :
    (slotAt t k).samples.length = 1024 := by
  by_cases hk : k < t.length
  · simpa [slotAt, hk] using h _ (List.getElem_mem hk)
  · have : slotAt t k = Slot.empty := by simp [slotAt, hk]
    rw [this]; exact Slot.empty_samples_length

theorem putSlot_length (t : List Slot) (k : Nat) (w : List Sample16) : (putSlot t k w).length = t.length := by
  simp [putSlot]

theorem putSlot_slot_length {t : List Slot} (h : ∀ k ∈ t, k.samples.length = 1024) (k : Nat) {w : List Sample16}
    (hw : w.length = 1024) : ∀ x ∈ putSlot t k w, x.samples.length = 1024 := by
  intro x hx
  rcases List.mem_or_eq_of_mem_set hx with hx | rfl
  · exact h x hx
  · exact hw

theorem slotAt_putSlot_same {t : List Slot} {k : Nat} (h : k < t.length) (w : List Sample16) :
    slotAt (putSlot t k w) k = { set := true, samples := w } := by
  simp [slotAt, putSlot, h]

theorem slotAt_putSlot_other {t : List Slot} {k j : Nat} (h : k ≠ j) (w : List Sample16) :
    slotAt (putSlot t k w) j = slotAt t j := by
  simp [slotAt, putSlot, List.getElem?_set_ne h]

theorem anyUnset_eq_true_iff (t : List Slot) : anyUnset t = true ↔ ∃ k < 16, (slotAt t k).set = false := by
  simp [anyUnset]

/-! ## Reset and host loads -/

theorem State.resetWith_wf {c : Params} (hc : c.Legal) : (State.resetWith c).Wf := by
  refine ⟨hc, by simp, ?_, by simp, ?_, emptyTable_length, emptyTable_slot_length, by simp⟩
  · intro x hx; rw [List.eq_of_mem_replicate hx]; simp
  · intro b hb; rw [List.eq_of_mem_replicate hb]; exact PcmBuffer.default_wf _

theorem State.Wf.hostReset {s : State} (h : s.Wf) : s.hostReset.Wf := State.resetWith_wf h.legal

theorem loadedBuffer_wf {c : Params} {ch res : Nat} {x : List Int} {b : PcmBuffer}
    (h : loadedBuffer c ch res x = some b) : b.Wf c := by
  unfold loadedBuffer at h
  split at h
  · split at h
    · rename_i hc
      cases h
      refine ⟨?_, by simpa using hc.1⟩
      simpa using (Nat.div_mul_cancel (Nat.dvd_of_mod_eq_zero hc.2.1)).symm
    · cases h
  · cases h

theorem State.Wf.hostLoadP {s : State} (h : s.Wf) (i ch res : Nat) (x : List Int) : (s.hostLoadP i ch res x).Wf := by
  unfold State.hostLoadP
  split
  · rename_i b hb
    split
    · refine ⟨h.legal, h.v_length, h.v_bound, by simpa using h.p_length, fun y hy => ?_, h.wt_length, h.slot_length, h.status_lt⟩
      rcases List.mem_or_eq_of_mem_set hy with hy | rfl
      · exact h.p_wf y hy
      · exact loadedBuffer_wf hb
    · exact h
  · exact h

theorem State.Wf.hostLoadV {s : State} (h : s.Wf) (i : Nat) (x : List Nat) : (s.hostLoadV i x).Wf := by
  unfold State.hostLoadV
  split
  · rename_i hc
    simp only [loadVOk, Bool.and_eq_true, decide_eq_true_eq] at hc
    refine ⟨h.legal, by simpa using h.v_length, fun y hy => ?_, h.p_length, h.p_wf, h.wt_length, h.slot_length, h.status_lt⟩
    rcases List.mem_or_eq_of_mem_set hy with hy | rfl
    · exact h.v_bound y hy
    · simpa using hc.1.2
  · exact h

end Sys2Proof.Machine
end

