-- ==== Sys2Proof/Laws/Buffers.lean ====
section
/-! SUPPORT. What the PCM buffer functions do to lengths and elements, and that each keeps the invariants of a PCM buffer (spec/10_state.md rule R24). -/

namespace Sys2Proof.Machine

/-! ## Channel counts, resolutions, reads by index -/

theorem Channels.count_pos (c : Channels) : 0 < c.count := by cases c <;> decide

theorem Channels.count_inj {a b : Channels} (h : a.count = b.count) : a = b := by
  cases a <;> cases b <;> first | rfl | cases h

theorem Channels.ofNat?_count (c : Channels) : Channels.ofNat? c.count = some c := by cases c <;> rfl

theorem Resolution.ofNat?_eq_some_iff (n : Nat) (r : Resolution) : Resolution.ofNat? n = some r ↔ r.bits = n := by
  unfold Resolution.ofNat?
  split <;> cases r <;> simp_all [Resolution.bits]
  all_goals omega

theorem Resolution.ofNat?_eq_none_iff (n : Nat) :
    Resolution.ofNat? n = none ↔ n ≠ 8 ∧ n ≠ 16 ∧ n ≠ 24 ∧ n ≠ 32 := by
  unfold Resolution.ofNat?
  split <;> simp_all

theorem sampleAt_toArray (x : List Sample) (i : Nat) : sampleAt x.toArray i = x.getD i 0 := by
  simp [sampleAt]

/-- Reading element `i` of a list made by its index. -/
theorem getD_map_range {α : Type} (f : Nat → α) {n i : Nat} (h : i < n) (d : α) :
    ((List.range n).map f).getD i d = f i := by
  simp [h]

/-! ## One channel of a buffer (R25, R150) -/

@[simp] theorem PcmBuffer.channel_length (b : PcmBuffer) (c : Nat) : (b.channel c).length = b.spc := by
  simp [PcmBuffer.channel]

theorem PcmBuffer.channel_getD (b : PcmBuffer) (c : Nat) {k : Nat} (h : k < b.spc) :
    (b.channel c).getD k 0 = b.s.getD (k * b.ch.count + c) 0 := by
  rw [PcmBuffer.channel, getD_map_range _ h, sampleAt_toArray]

theorem channelBuffer_wf {p : Params} {b : PcmBuffer} (h : b.Wf p) (c : Nat) : (channelBuffer b c).Wf p := by
  refine ⟨by simp [channelBuffer, Channels.count], ?_⟩
  have := b.ch.count_pos
  have h1 := h.1
  have h2 := h.2
  simp only [channelBuffer, PcmBuffer.channel_length]
  nlinarith

/-! ## Requantize, trim, normalize, morph keep a buffer well formed -/

theorem requantBuffer_wf {p : Params} {b : PcmBuffer} (h : b.Wf p) (r : Resolution) : (requantBuffer r b).Wf p := by
  simpa [PcmBuffer.Wf, requantBuffer] using h

theorem trimBuffer_length {p : Params} {b : PcmBuffer} (h : b.Wf p) {start size : Nat} (hs : start + size ≤ b.spc) :
    (trimBuffer b start size).s.length = size * b.ch.count := by
  have h1 := h.1
  have : (start + size) * b.ch.count ≤ b.spc * b.ch.count := Nat.mul_le_mul_right _ hs
  rw [Nat.add_mul] at this
  simp only [trimBuffer, List.length_take, List.length_drop]
  omega

theorem trimBuffer_wf {p : Params} {b : PcmBuffer} (h : b.Wf p) {start size : Nat} (hs : start + size ≤ b.spc) :
    (trimBuffer b start size).Wf p := by
  refine ⟨trimBuffer_length h hs, ?_⟩
  have h2 := h.2
  simp only [trimBuffer, List.length_take, List.length_drop]
  omega

theorem normBuffer_wf {p : Params} {b : PcmBuffer} (h : b.Wf p) (t : Nat) : (normBuffer t b).Wf p := by
  unfold normBuffer
  split
  · exact h
  · simpa [PcmBuffer.Wf] using h

theorem morphBuffer_wf {p : Params} {a b : PcmBuffer} (ha : a.Wf p) (hb : b.Wf p) (hs : a.spc = b.spc) (hc : a.ch = b.ch)
    (num den : Nat) : (morphBuffer a b num den).Wf p := by
  have : a.s.length = b.s.length := by rw [ha.1, hb.1, hs, hc]
  refine ⟨?_, ?_⟩
  · simpa [morphBuffer, ← this] using ha.1
  · simpa [morphBuffer, ← this] using ha.2

/-! ## The peak (R165) -/

theorem peak_foldl_ge (x : List Sample) (m : Nat) :
    m ≤ x.foldl (fun m y => max m y.toInt.natAbs) m ∧
    ∀ y ∈ x, y.toInt.natAbs ≤ x.foldl (fun m y => max m y.toInt.natAbs) m := by
  induction x generalizing m with
  | nil => simp
  | cons a x ih =>
    obtain ⟨h1, h2⟩ := ih (max m a.toInt.natAbs)
    refine ⟨le_trans (le_max_left _ _) h1, fun y hy => ?_⟩
    rcases List.mem_cons.mp hy with rfl | hy
    · exact le_trans (le_max_right _ _) h1
    · exact h2 y hy

theorem peak_foldl_attained (x : List Sample) (m : Nat) :
    x.foldl (fun m y => max m y.toInt.natAbs) m = m ∨
    ∃ y ∈ x, y.toInt.natAbs = x.foldl (fun m y => max m y.toInt.natAbs) m := by
  induction x generalizing m with
  | nil => simp
  | cons a x ih =>
    rcases ih (max m a.toInt.natAbs) with h | ⟨y, hy, h⟩
    · rw [List.foldl_cons, h]
      rcases max_choice m a.toInt.natAbs with h' | h'
      · exact .inl h'
      · exact .inr ⟨a, List.mem_cons_self .., h'.symm⟩
    · exact .inr ⟨y, List.mem_cons_of_mem _ hy, h⟩

/-- The peak bounds every sample, and is one of them unless it is 0. -/
theorem peak_spec (x : List Sample) :
    (∀ y ∈ x, y.toInt.natAbs ≤ peak x) ∧ (peak x = 0 ∨ ∃ y ∈ x, y.toInt.natAbs = peak x) :=
  ⟨(peak_foldl_ge x 0).2, peak_foldl_attained x 0⟩

/-! ## Growth (R138) -/

@[simp] theorem grow_nil : grow [] = [] := rfl
@[simp] theorem grow_singleton (a : Sample) : grow [a] = [a] := rfl
@[simp] theorem grow_cons_cons (a b : Sample) (x : List Sample) :
    grow (a :: b :: x) = a :: mean16 a b :: grow (b :: x) := by
  simp [grow, List.getLast?_cons_cons]

theorem grow_length (x : List Sample) : (grow x).length = 2 * x.length - 1 := by
  induction x with
  | nil => rfl
  | cons a x ih => cases x with
    | nil => rfl
    | cons b x => simp only [grow_cons_cons, List.length_cons] at *; omega

/-- A growth round keeps sample `j` at place `2j` and puts the mean of samples `j` and `j + 1` at place `2j + 1`. -/
theorem grow_getD (x : List Sample) (j : Nat) :
    (j < x.length → (grow x).getD (2 * j) 0 = x.getD j 0) ∧
    (j + 1 < x.length → (grow x).getD (2 * j + 1) 0 = mean16 (x.getD j 0) (x.getD (j + 1) 0)) := by
  induction x generalizing j with
  | nil => simp
  | cons a x ih => cases x with
    | nil => constructor <;> intro h <;> simp_all
    | cons b x =>
      cases j with
      | zero => simp
      | succ j =>
        obtain ⟨h1, h2⟩ := ih j
        refine ⟨fun h => ?_, fun h => ?_⟩
        · have := h1 (by simpa using h)
          simpa [Nat.mul_succ] using this
        · have := h2 (by simpa using h)
          simpa [Nat.mul_succ] using this

/-- `r` growth rounds. -/
def growRounds : Nat → List Sample → List Sample
  | 0, x => x
  | r + 1, x => growRounds r (grow x)

theorem growRounds_length {x : List Sample} (hx : 1 ≤ x.length) (r : Nat) :
    (growRounds r x).length = 2 ^ r * (x.length - 1) + 1 := by
  induction r generalizing x with
  | zero => simp [growRounds]; omega
  | succ r ih =>
    rw [growRounds, ih (by rw [grow_length]; omega), grow_length, pow_succ]
    have : 2 * x.length - 1 - 1 = 2 * (x.length - 1) := by omega
    rw [this]; ring

/-- The growth loop runs the least number of rounds that reaches the target. -/
theorem growTo_eq_growRounds (fuel target : Nat) {x : List Sample} (hx : 2 ≤ x.length) (hf : target ≤ fuel + x.length) :
    ∃ r, growTo fuel target x = growRounds r x ∧ target ≤ (growRounds r x).length ∧
      ∀ q < r, (growRounds q x).length < target := by
  induction fuel generalizing x with
  | zero => exact ⟨0, rfl, by simpa [growRounds] using hf, by simp⟩
  | succ fuel ih =>
    unfold growTo
    split
    · rename_i h
      obtain ⟨r, h1, h2, h3⟩ := ih (x := grow x) (by rw [grow_length]; omega) (by rw [grow_length]; omega)
      refine ⟨r + 1, h1, h2, fun q hq => ?_⟩
      cases q with
      | zero => exact h
      | succ q => exact h3 q (by omega)
    · rename_i h
      exact ⟨0, rfl, by simpa [growRounds] using h, by simp⟩

/-! ## Decimation and interleaving (R140, R25) -/

@[simp] theorem resizeChannel_length (target : Nat) (x : List Sample) : (resizeChannel target x).length = target := by
  simp [resizeChannel]

theorem resizeChannel_getD (target : Nat) (x : List Sample) {i : Nat} (h : i < target) :
    (resizeChannel target x).getD i 0 =
      (growTo target target x).getD (decimationIndex (growTo target target x).length target i) 0 := by
  rw [resizeChannel, getD_map_range _ h, sampleAt_toArray]

theorem interleave_length (n : Nat) (xs : List (List Sample)) : (interleave n xs).length = n * xs.length := by
  simp [interleave, List.length_flatMap]

/-- Element `i * ch + c` of a sequence gathered in blocks of `ch`. -/
theorem getD_flatMap_blocks {α : Type} (n m : Nat) (f : Nat → List α) (hf : ∀ i < n, (f i).length = m) (i c : Nat)
    (hi : i < n) (hc : c < m) (d : α) : ((List.range n).flatMap f).getD (i * m + c) d = (f i).getD c d := by
  induction n with
  | zero => omega
  | succ n ih =>
    have hlen : ((List.range n).flatMap f).length = n * m := by
      have : List.map (fun a => (f a).length) (List.range n) = List.map (fun _ => m) (List.range n) :=
        List.map_congr_left fun a ha => hf a (by have := List.mem_range.mp ha; omega)
      rw [List.length_flatMap, this]; simp
    rw [List.range_succ, List.flatMap_append, List.getD_eq_getElem?_getD, List.getElem?_append]
    rcases Nat.lt_or_ge i n with h | h
    · have : i * m + c < n * m := by nlinarith
      rw [hlen, if_pos this, ← List.getD_eq_getElem?_getD]
      exact ih (fun i hi => hf i (by omega)) h
    · have : i = n := by omega
      subst this
      rw [hlen, if_neg (by omega)]
      simp

theorem interleave_getD (n : Nat) (xs : List (List Sample)) {i c : Nat} (hi : i < n) (hc : c < xs.length) :
    (interleave n xs).getD (i * xs.length + c) 0 = (xs.getD c []).getD i 0 := by
  rw [interleave, getD_flatMap_blocks n xs.length _ (by simp) i c hi hc]
  simp [hc, sampleAt]

theorem resizeBuffer_length (target : Nat) (b : PcmBuffer) :
    (resizeBuffer target b).s.length = target * b.ch.count := by
  simp [resizeBuffer, interleave_length]

theorem resizeBuffer_getD (target : Nat) (b : PcmBuffer) {i c : Nat} (hi : i < target) (hc : c < b.ch.count) :
    (resizeBuffer target b).s.getD (i * b.ch.count + c) 0 = (resizeChannel target (b.channel c)).getD i 0 := by
  have := interleave_getD target ((List.range b.ch.count).map fun c => resizeChannel target (b.channel c)) hi
    (c := c) (by simpa using hc)
  rw [List.length_map, List.length_range] at this
  rw [resizeBuffer, this, getD_map_range _ hc]

theorem resizeBuffer_wf {p : Params} {b : PcmBuffer} {target : Nat} (h : target ≤ sizeCap p b) :
    (resizeBuffer target b).Wf p := by
  refine ⟨resizeBuffer_length target b, ?_⟩
  rw [resizeBuffer_length]
  exact (Nat.le_div_iff_mul_le b.ch.count_pos).mp h

end Sys2Proof.Machine
end

