-- ==== Sys2Proof/Laws/Codec.lean ====
section
/-! SUPPORT. What the packing codec functions do: runs, pack bytes, lengths and elements of Pack and Unpack (spec/40_packing_codec.md rules R100, R104). -/

namespace Sys2Proof.Machine

/-! ## Runs -/

theorem runsFrom_short {α : Type} {k : Nat} (acc x : List α) (h : acc.length + x.length < k) :
    runsFrom k acc x = if (acc ++ x).isEmpty then [] else [acc ++ x] := by
  induction x generalizing acc with
  | nil => simp [runsFrom]
  | cons a x ih =>
    rw [List.length_cons] at h
    rw [runsFrom, if_neg (by omega), ih _ (by simp; omega)]
    simp

theorem runsFrom_full {α : Type} {k : Nat} (acc x : List α) (ha : acc.length < k) (h : k ≤ acc.length + x.length) :
    runsFrom k acc x = (acc ++ x.take (k - acc.length)) :: runs k (x.drop (k - acc.length)) := by
  induction x generalizing acc with
  | nil => simp at h; omega
  | cons a x ih =>
    rw [List.length_cons] at h
    rw [runsFrom]
    split
    · rename_i he
      have : k - acc.length = 1 := by omega
      simp [this, runs]
    · rename_i he
      rw [ih _ (by simp; omega) (by simp; omega)]
      have : k - acc.length = (k - (acc.length + 1)) + 1 := by omega
      simp [this]

@[simp] theorem runs_nil {α : Type} (k : Nat) : runs k ([] : List α) = [] := rfl

theorem runs_short {α : Type} {k : Nat} {x : List α} (h0 : x ≠ []) (h : x.length < k) : runs k x = [x] := by
  rw [runs, runsFrom_short _ _ (by simpa using h)]
  simp [h0]

theorem runs_full {α : Type} {k : Nat} {x : List α} (hk : 0 < k) (h : k ≤ x.length) :
    runs k x = x.take k :: runs k (x.drop k) := by
  rw [runs, runsFrom_full _ _ (by simpa using hk) (by simpa using h)]
  simp

/-! ## The pack byte -/

theorem packBit_getLsbD (b : Byte) (j k : Nat) (hk : k < 8) :
    (if b.getLsbD 7 then BitVec.ofNat 8 (2 ^ j) else (0 : Byte)).getLsbD k = (b.getLsbD 7 && decide (j = k)) := by
  cases b.getLsbD 7
  · rw [if_neg Bool.false_ne_true]; exact BitVec.getLsbD_zero
  · rw [if_pos rfl, BitVec.getLsbD_ofNat, Nat.testBit_two_pow, decide_eq_true hk]

theorem packByte_foldl_getLsbD (l : List (Byte × Nat)) (a : Byte) (k : Nat) (hk : k < 8) :
    ((l.map fun (b, k) => if b.getLsbD 7 then BitVec.ofNat 8 (2 ^ k) else 0).foldl (· ||| ·) a).getLsbD k =
      (a.getLsbD k || l.any fun (b, j) => b.getLsbD 7 && decide (j = k)) := by
  induction l generalizing a with
  | nil => simp
  | cons p l ih =>
    rw [List.map_cons, List.foldl_cons, ih, List.any_cons, BitVec.getLsbD_or, packBit_getLsbD _ _ _ hk, Bool.or_assoc]

/-- Bit `k` of the pack byte is bit 7 of value `k` of the run (R100). -/
theorem packByte_getLsbD (run : List Byte) (k : Nat) (hk : k < 8) :
    (packByte run).getLsbD k = (run.getD k 0).getLsbD 7 := by
  have h0 : (0 : Byte).getLsbD k = false := BitVec.getLsbD_zero
  rw [packByte, packByte_foldl_getLsbD _ _ _ hk, h0, Bool.false_or, Bool.eq_iff_iff, List.any_eq_true,
    List.getD_eq_getElem?_getD]
  constructor
  · rintro ⟨⟨b, j⟩, hm, h⟩
    obtain ⟨h1, h2⟩ := Bool.and_eq_true_iff.mp h
    obtain rfl := of_decide_eq_true h2
    rw [List.mk_mem_zipIdx_iff_getElem?] at hm
    rw [hm]; exact h1
  · intro h
    cases hx : run[k]? with
    | none => rw [hx] at h; exact absurd h (by decide)
    | some b =>
      rw [hx] at h
      exact ⟨(b, k), List.mk_mem_zipIdx_iff_getElem?.mpr hx, Bool.and_eq_true_iff.mpr ⟨h, decide_eq_true rfl⟩⟩

theorem packRun_length (run : List Byte) : (packRun run).length = run.length + 1 := by simp [packRun]

/-! ## Pack -/

@[simp] theorem pack_nil : pack [] = [] := rfl

theorem pack_short {x : List Byte} (h0 : x ≠ []) (h : x.length < 7) : pack x = packRun x := by
  simp [pack, runs_short h0 h]

theorem pack_full {x : List Byte} (h : 7 ≤ x.length) : pack x = packRun (x.take 7) ++ pack (x.drop 7) := by
  simp [pack, runs_full (by decide) h]

/-- Induction over the runs of `k` of a sequence. -/
theorem induction_on_runs {α : Type} {k : Nat} (hk : 0 < k) {motive : List α → Prop} (nil : motive [])
    (short : ∀ x, x ≠ [] → x.length < k → motive x)
    (full : ∀ x, k ≤ x.length → motive (x.drop k) → motive x) (x : List α) : motive x := by
  induction hn : x.length using Nat.strong_induction_on generalizing x with
  | _ n ih =>
    subst hn
    by_cases h0 : x = []
    · exact h0 ▸ nil
    · rcases Nat.lt_or_ge x.length k with h | h
      · exact short x h0 h
      · exact full x h (ih _ (by rw [List.length_drop]; omega) _ rfl)

/-- `len(Pack(x)) = n + ceil(n/7)` (R100). -/
theorem pack_length (x : List Byte) : (pack x).length = x.length + (x.length + 6) / 7 := by
  induction x using induction_on_runs (k := 7) (by decide) with
  | nil => rfl
  | short x h0 h =>
    have := List.length_pos_of_ne_nil h0
    rw [pack_short h0 h, packRun_length]; omega
  | full x h ih =>
    rw [pack_full h, List.length_append, packRun_length, ih, List.length_take, List.length_drop]
    omega

/-- Packet `g` of a packed sequence: its pack byte at place `8g`, then the values of run `g` with bit 7 cleared (R100). -/
theorem pack_getElem? (x : List Byte) (g : Nat) (hg : 7 * g < x.length) :
    (pack x)[8 * g]? = some (packByte ((x.drop (7 * g)).take 7)) ∧
    ∀ k < 7, 7 * g + k < x.length → (pack x)[8 * g + 1 + k]? = some (x.getD (7 * g + k) 0 &&& 0x7F#8) := by
  induction x using induction_on_runs (k := 7) (by decide) generalizing g with
  | nil => simp at hg
  | short x h0 h =>
    have : g = 0 := by omega
    subst this
    rw [pack_short h0 h]
    have ht : x.take 7 = x := List.take_of_length_le (by omega)
    refine ⟨by simp [packRun, ht], fun k hk hx => ?_⟩
    have hx' : k < x.length := by omega
    have : 8 * 0 + 1 + k = k + 1 := by omega
    rw [this]
    simp [packRun, hx']
  | full x h ih =>
    rw [pack_full h]
    have hl : (packRun (x.take 7)).length = 8 := by rw [packRun_length, List.length_take]; omega
    cases g with
    | zero =>
      refine ⟨?_, fun k hk hx => ?_⟩
      · rw [List.getElem?_append_left (by omega)]; simp [packRun]
      · rw [List.getElem?_append_left (by omega)]
        have : 8 * 0 + 1 + k = k + 1 := by omega
        rw [this]
        have hx' : k < x.length := by omega
        simp [packRun, hk, hx']
    | succ g =>
      obtain ⟨h1, h2⟩ := ih g (by rw [List.length_drop]; omega)
      refine ⟨?_, fun k hk hx => ?_⟩
      · rw [List.getElem?_append_right (by omega), hl]
        have : 8 * (g + 1) - 8 = 8 * g := by omega
        rw [this, h1, List.drop_drop]
        have : 7 + 7 * g = 7 * (g + 1) := by omega
        rw [this]
      · rw [List.getElem?_append_right (by omega), hl]
        have : 8 * (g + 1) + 1 + k - 8 = 8 * g + 1 + k := by omega
        rw [this, h2 k hk (by rw [List.length_drop]; omega)]
        have : 7 + (7 * g + k) = 7 * (g + 1) + k := by omega
        simp [List.getD_eq_getElem?_getD, List.getElem?_drop, this]

/-! ## Unpack -/

@[simp] theorem unpack_nil : unpack [] = [] := rfl

theorem unpackRun_length (x : List Byte) : (unpackRun x).length = x.length - 1 := by
  cases x <;> simp [unpackRun]

theorem unpack_short {x : List Byte} (h0 : x ≠ []) (h : x.length < 8) : unpack x = unpackRun x := by
  simp [unpack, runs_short h0 h]

theorem unpack_full {x : List Byte} (h : 8 ≤ x.length) : unpack x = unpackRun (x.take 8) ++ unpack (x.drop 8) := by
  simp [unpack, runs_full (by decide) h]

/-- `len(Unpack(p)) = n - ceil(n/8)` (R104). -/
theorem unpack_length (x : List Byte) : (unpack x).length = x.length - (x.length + 7) / 8 := by
  induction x using induction_on_runs (k := 8) (by decide) with
  | nil => rfl
  | short x h0 h =>
    have := List.length_pos_of_ne_nil h0
    rw [unpack_short h0 h, unpackRun_length]; omega
  | full x h ih =>
    rw [unpack_full h, List.length_append, unpackRun_length, ih, List.length_take, List.length_drop]
    omega

theorem unpack_length_le (x : List Byte) : (unpack x).length ≤ x.length := by
  rw [unpack_length]; omega

theorem unpackRun_getElem? (x : List Byte) (k : Nat) (h : k + 1 < x.length) :
    (unpackRun x)[k]? = some (unpackByte (x.getD 0 0) k (x.getD (k + 1) 0)) := by
  cases x with
  | nil => simp at h
  | cons a x =>
    have : k < x.length := by simpa using h
    simp [unpackRun, this]

/-- The byte at index `i`, not the first of its packet, gives output byte `i - floor(i/8) - 1`, with the high bit its
packet's pack byte supplies (R104). -/
theorem unpack_getElem? (x : List Byte) (i : Nat) (hi : i < x.length) (h0 : i % 8 ≠ 0) :
    (unpack x)[i - i / 8 - 1]? = some (unpackByte (x.getD (i - i % 8) 0) (i % 8 - 1) (x.getD i 0)) := by
  induction x using induction_on_runs (k := 8) (by decide) generalizing i with
  | nil => simp at hi
  | short x hx h =>
    rw [unpack_short hx h]
    have e1 : i - i / 8 - 1 = i - 1 := by omega
    have e2 : i - i % 8 = 0 := by omega
    have e3 : i % 8 - 1 = i - 1 := by omega
    have e4 : i - 1 + 1 = i := by omega
    rw [e1, e2, e3, unpackRun_getElem? x (i - 1) (by omega), e4]
  | full x h ih =>
    rw [unpack_full h]
    have hl : (unpackRun (x.take 8)).length = 7 := by rw [unpackRun_length, List.length_take]; omega
    rcases Nat.lt_or_ge i 8 with hi8 | hi8
    · have e1 : i - i / 8 - 1 = i - 1 := by omega
      have e2 : i - i % 8 = 0 := by omega
      have e3 : i % 8 - 1 = i - 1 := by omega
      have e4 : i - 1 + 1 = i := by omega
      rw [e1, e2, e3, List.getElem?_append_left (by omega),
        unpackRun_getElem? _ (i - 1) (by rw [List.length_take]; omega), e4]
      simp [hi8]
    · rw [List.getElem?_append_right (by omega), hl]
      have e1 : i - i / 8 - 1 - 7 = (i - 8) - (i - 8) / 8 - 1 := by omega
      have e2 : (i - 8) % 8 = i % 8 := by omega
      have e3 : 8 + (i - 8 - i % 8) = i - i % 8 := by omega
      have e4 : 8 + (i - 8) = i := by omega
      rw [e1, ih (i - 8) (by rw [List.length_drop]; omega) (by omega), e2]
      simp [List.getD_eq_getElem?_getD, List.getElem?_drop, e3, e4]

end Sys2Proof.Machine
end

