-- ==== Sys2Proof/Laws/Decode.lean ====
section
/-! SUPPORT. The fields of an assembled word are the fields it was assembled from (spec/30_encoding.md rule R72). -/

namespace Sys2Proof

section
variable (op : BitVec 8) (rd ra rb : RegField) (immA immB : Imm)

theorem assembleFields_getLsbD (k : Nat) :
    (assembleFields op rd ra rb immA immB).getLsbD k =
      if k < 22 then immB.getLsbD k
      else if k < 44 then immA.getLsbD (k - 22)
      else if k < 48 then rb.getLsbD (k - 44)
      else if k < 52 then ra.getLsbD (k - 48)
      else if k < 56 then rd.getLsbD (k - 52)
      else op.getLsbD (k - 56) := by
  unfold assembleFields
  simp only [BitVec.getLsbD_append, Nat.sub_sub]
  split_ifs <;> first | rfl | omega

theorem extractLsb'_getLsbD {n : Nat} (w : BitVec n) (start len k : Nat) (h : k < len) :
    (w.extractLsb' start len).getLsbD k = w.getLsbD (start + k) := by
  rw [BitVec.getLsbD_extractLsb', decide_eq_true h, Bool.true_and]

@[simp] theorem opField_assembleFields : opField (assembleFields op rd ra rb immA immB) = op := by
  apply BitVec.eq_of_getLsbD_eq
  intro k hk
  rw [opField, extractLsb'_getLsbD _ _ _ _ hk, assembleFields_getLsbD]
  split_ifs <;> first | omega | (congr 1; omega)

@[simp] theorem rdField_assembleFields : rdField (assembleFields op rd ra rb immA immB) = rd := by
  apply BitVec.eq_of_getLsbD_eq
  intro k hk
  rw [rdField, extractLsb'_getLsbD _ _ _ _ hk, assembleFields_getLsbD]
  split_ifs <;> first | omega | (congr 1; omega)

@[simp] theorem raField_assembleFields : raField (assembleFields op rd ra rb immA immB) = ra := by
  apply BitVec.eq_of_getLsbD_eq
  intro k hk
  rw [raField, extractLsb'_getLsbD _ _ _ _ hk, assembleFields_getLsbD]
  split_ifs <;> first | omega | (congr 1; omega)

@[simp] theorem rbField_assembleFields : rbField (assembleFields op rd ra rb immA immB) = rb := by
  apply BitVec.eq_of_getLsbD_eq
  intro k hk
  rw [rbField, extractLsb'_getLsbD _ _ _ _ hk, assembleFields_getLsbD]
  split_ifs <;> first | omega | (congr 1; omega)

@[simp] theorem immAField_assembleFields : immAField (assembleFields op rd ra rb immA immB) = immA := by
  apply BitVec.eq_of_getLsbD_eq
  intro k hk
  rw [immAField, extractLsb'_getLsbD _ _ _ _ hk, assembleFields_getLsbD]
  split_ifs <;> first | omega | (congr 1; omega)

@[simp] theorem immBField_assembleFields : immBField (assembleFields op rd ra rb immA immB) = immB := by
  apply BitVec.eq_of_getLsbD_eq
  intro k hk
  rw [immBField, extractLsb'_getLsbD _ _ _ _ hk, assembleFields_getLsbD]
  split_ifs <;> first | omega | (congr 1; omega)

end

/-- A word is its fields assembled (R72). -/
theorem assembleFields_fields (w : Word) :
    assembleFields (opField w) (rdField w) (raField w) (rbField w) (immAField w) (immBField w) = w := by
  apply BitVec.eq_of_getLsbD_eq
  intro k hk
  rw [assembleFields_getLsbD]
  simp only [opField, rdField, raField, rbField, immAField, immBField]
  split_ifs <;> (rw [extractLsb'_getLsbD _ _ _ _ (by omega)]; congr 1; omega)

/-- And of two words, field by field: how a format's mask acts. -/
theorem assembleFields_and (op op' : BitVec 8) (rd rd' ra ra' rb rb' : RegField) (immA immA' immB immB' : Imm) :
    assembleFields op rd ra rb immA immB &&& assembleFields op' rd' ra' rb' immA' immB' =
      assembleFields (op &&& op') (rd &&& rd') (ra &&& ra') (rb &&& rb') (immA &&& immA') (immB &&& immB') := by
  apply BitVec.eq_of_getLsbD_eq
  intro k _
  rw [BitVec.getLsbD_and, assembleFields_getLsbD, assembleFields_getLsbD, assembleFields_getLsbD]
  split_ifs <;> rw [BitVec.getLsbD_and]

end Sys2Proof
end

