-- ==== Sys2Proof/Laws/Emit.lean ====
section
/-! SUPPORT. Lengths and elements of the emitted streams (spec/45_wavetable.md rules R190 to R199). -/

namespace Sys2Proof.Machine

@[simp] theorem level_length (w : List Sample16) (n : Nat) : (level w n).length = n := by simp [level]

theorem level_getD (w : List Sample16) {n i : Nat} (h : i < n) : (level w n).getD i 0 = w.getD (i * (1024 / n)) 0 := by
  simp [level, h]

/-- 12 instances, 3072 samples (R191). -/
theorem instances_length (w : List Sample16) : (instances w).length = 3072 := by
  simp [instances]

/-- 49152 samples in the whole table (R191). -/
theorem tableSamples_length (t : List Slot) : (tableSamples t).length = 49152 := by
  have : (List.range 16).map (fun k => (instances (slotAt t k).samples).length) = (List.range 16).map fun _ => 3072 :=
    List.map_congr_left fun k _ => instances_length _
  rw [tableSamples, List.length_flatMap, this]; rfl

theorem flatMap_sampleBytes_length (x : List Sample16) : (x.flatMap sampleBytes).length = 2 * x.length := by
  induction x with
  | nil => rfl
  | cons a x ih => rw [List.flatMap_cons, List.length_append, ih, List.length_cons]; simp [sampleBytes]; omega

/-- A sequence of samples as bytes: sample `m` at places `2m` (high byte) and `2m + 1` (low byte) (R192). -/
theorem flatMap_sampleBytes_getD (x : List Sample16) (m : Nat) (h : m < x.length) :
    (x.flatMap sampleBytes).getD (2 * m) 0 = highByte (x.getD m 0) ∧
    (x.flatMap sampleBytes).getD (2 * m + 1) 0 = lowByte (x.getD m 0) := by
  induction x generalizing m with
  | nil => simp at h
  | cons a x ih =>
    cases m with
    | zero => simp [sampleBytes]
    | succ m =>
      have := ih m (by simpa using h)
      simpa [sampleBytes, Nat.mul_succ] using this

/-- The unpacked payload is 98304 bytes (R194). -/
theorem payload_length (t : List Slot) : (payload t).length = 98304 := by
  rw [payload, flatMap_sampleBytes_length, tableSamples_length]

/-- The packed payload is 112348 bytes (R86, R197). -/
theorem pack_payload_length (t : List Slot) : (pack (payload t)).length = 112348 := by
  rw [pack_length, payload_length]

theorem nameField_length (name : List Byte) : (nameField name).length = 8 := by simp [nameField]

/-- The frame is always 112368 bytes (R86). -/
theorem frame_length (sb : Byte) (name : List Byte) (t : List Slot) (ck : BitVec 16) :
    (frame sb name (payload t) ck).length = 112368 := by
  simp [frame, frameHeader, nameField_length, pack_payload_length]

end Sys2Proof.Machine
end

