-- ==== Sys2Proof/Laws/PerInstr.lean ====
section
/-! SUPPORT. Statements made per command, one lemma per constructor of Instr. -/

namespace Sys2Proof.Laws

/-- The opcode map reads from a command's own word that command, with all its operands (R72, R76). -/
def ShapeOfEncode.Statement (i : Instr) : Prop := (shape (encode i)).map Prod.snd = some i

theorem ShapeOfEncode.nop : ShapeOfEncode.Statement .nop := by simp [ShapeOfEncode.Statement, encode, shape]
theorem ShapeOfEncode.clrst (mask : Imm) : ShapeOfEncode.Statement (.clrst mask) := by
  simp [ShapeOfEncode.Statement, encode, shape]
theorem ShapeOfEncode.pack (d a : RegField) : ShapeOfEncode.Statement (.pack d a) := by
  simp [ShapeOfEncode.Statement, encode, shape]
theorem ShapeOfEncode.unpack (d a : RegField) : ShapeOfEncode.Statement (.unpack d a) := by
  simp [ShapeOfEncode.Statement, encode, shape]
theorem ShapeOfEncode.vdump (a : RegField) : ShapeOfEncode.Statement (.vdump a) := by
  simp [ShapeOfEncode.Statement, encode, shape]
theorem ShapeOfEncode.requant (d : RegField) (res : Imm) : ShapeOfEncode.Statement (.requant d res) := by
  simp [ShapeOfEncode.Statement, encode, shape]
theorem ShapeOfEncode.resize (d : RegField) (n : Imm) : ShapeOfEncode.Statement (.resize d n) := by
  simp [ShapeOfEncode.Statement, encode, shape]
theorem ShapeOfEncode.chsel (d a : RegField) (c : Imm) : ShapeOfEncode.Statement (.chsel d a c) := by
  simp [ShapeOfEncode.Statement, encode, shape]
theorem ShapeOfEncode.trim (d a : RegField) (start size : Imm) : ShapeOfEncode.Statement (.trim d a start size) := by
  simp [ShapeOfEncode.Statement, encode, shape]
theorem ShapeOfEncode.pclone (d a : RegField) : ShapeOfEncode.Statement (.pclone d a) := by
  simp [ShapeOfEncode.Statement, encode, shape]
theorem ShapeOfEncode.norm (d : RegField) (t : Imm) : ShapeOfEncode.Statement (.norm d t) := by
  simp [ShapeOfEncode.Statement, encode, shape]
theorem ShapeOfEncode.morph (d a b : RegField) (num den : Imm) : ShapeOfEncode.Statement (.morph d a b num den) := by
  simp [ShapeOfEncode.Statement, encode, shape]
theorem ShapeOfEncode.wtclr : ShapeOfEncode.Statement .wtclr := by simp [ShapeOfEncode.Statement, encode, shape]
theorem ShapeOfEncode.wtins (slot : Imm) (a : RegField) : ShapeOfEncode.Statement (.wtins slot a) := by
  simp [ShapeOfEncode.Statement, encode, shape]
theorem ShapeOfEncode.wtfill : ShapeOfEncode.Statement .wtfill := by simp [ShapeOfEncode.Statement, encode, shape]
theorem ShapeOfEncode.wtser (d : RegField) : ShapeOfEncode.Statement (.wtser d) := by
  simp [ShapeOfEncode.Statement, encode, shape]
theorem ShapeOfEncode.wtemit (slotbyte : Imm) (a : RegField) : ShapeOfEncode.Statement (.wtemit slotbyte a) := by
  simp [ShapeOfEncode.Statement, encode, shape]
theorem ShapeOfEncode.wtraw : ShapeOfEncode.Statement .wtraw := by simp [ShapeOfEncode.Statement, encode, shape]

end Sys2Proof.Laws
end

