-- ==== Sys2Proof/Laws/Wavetable.lean ====
section
/-! SUPPORT. What insertion and gap fill do to the slots of the wavetable (spec/45_wavetable.md rules R181 to R188). -/

namespace Sys2Proof.Machine

/-! ## Insertion -/

theorem slotSamples_length {b : PcmBuffer} (h : b.ch = .mono) : (slotSamples b).length = 1024 := by
  simp only [slotSamples, requantBuffer, List.length_map, resizeBuffer_length, h, Channels.count]

/-! ## Interpolation -/

theorem interpSamples_length {a b : List Sample16} (ha : a.length = 1024) (hb : b.length = 1024) (p q : Nat) :
    (interpSamples a b p q).length = 1024 := by
  simp [interpSamples, ha, hb]

theorem interpSamples_getD {a b : List Sample16} (p q : Nat) {i : Nat} (ha : i < a.length) (hb : i < b.length) :
    (interpSamples a b p q).getD i 0 = BitVec.ofInt 16 (lerp (a.getD i 0).toInt (b.getD i 0).toInt p q) := by
  simp [interpSamples, ha, hb]

/-! ## The shape of a table: 16 slots of 1024 samples -/

/-- 16 slots, 1024 samples each (R27). -/
abbrev TableShape (t : List Slot) : Prop := t.length = 16 ∧ ∀ k ∈ t, k.samples.length = 1024

theorem TableShape.putSlot {t : List Slot} (h : TableShape t) (k : Nat) {w : List Sample16} (hw : w.length = 1024) :
    TableShape (putSlot t k w) :=
  ⟨(putSlot_length t k w).trans h.1, putSlot_slot_length h.2 k hw⟩

theorem TableShape.closeTable {t : List Slot} (h : TableShape t) : TableShape (closeTable t) := by
  unfold Machine.closeTable
  split
  · exact h
  · exact h.putSlot _ (slotAt_samples_length h.2 0)

theorem TableShape.fillRun {t : List Slot} (h : TableShape t) (lo hi : Nat) : TableShape (fillRun lo hi t) := by
  unfold Machine.fillRun
  generalize List.range (hi - lo - 1) = l
  induction l generalizing t with
  | nil => exact h
  | cons n l ih =>
    exact ih (h.putSlot _ (interpSamples_length (slotAt_samples_length h.2 _) (slotAt_samples_length h.2 _) _ _))

theorem TableShape.fillStep {st : Nat × List Slot} (h : TableShape st.2) (hi : Nat) : TableShape (fillStep st hi).2 := by
  unfold Machine.fillStep
  split
  · exact h.fillRun _ _
  · exact h

theorem TableShape.fillTable {t : List Slot} (h : TableShape t) : TableShape (fillTable t) := by
  unfold Machine.fillTable
  have : ∀ (l : List Nat) (st : Nat × List Slot), TableShape st.2 → TableShape (l.foldl Machine.fillStep st).2 := by
    intro l
    induction l with
    | nil => exact fun _ h => h
    | cons hi l ih => exact fun st h => ih _ (h.fillStep hi)
  exact this _ _ h.closeTable

/-! ## One run of the gap fill -/

/-- The first `n` slots of a run filled: slot `lo + 1 + m` holds the interpolation with fraction `(m + 1) / (hi - lo)`
of the two bounds, and every other slot is as before (R185, R186). -/
theorem fillRun_partial {t : List Slot} (h : TableShape t) (lo hi : Nat) (hh : hi < 16) (n : Nat) (hn : lo + 1 + n ≤ hi)
    (k : Nat) :
    slotAt ((List.range n).foldl (fun u n => putSlot u (lo + 1 + n)
        (interpSamples (slotAt u lo).samples (slotAt u hi).samples (n + 1) (hi - lo))) t) k =
      if lo < k ∧ k < lo + 1 + n then
        { set := true, samples := interpSamples (slotAt t lo).samples (slotAt t hi).samples (k - lo) (hi - lo) }
      else slotAt t k := by
  induction n generalizing k with
  | zero => rw [if_neg (by omega)]; rfl
  | succ n ih =>
    rw [List.range_succ, List.foldl_append, List.foldl_cons, List.foldl_nil, ih (by omega) lo, ih (by omega) hi,
      if_neg (by omega), if_neg (by omega)]
    by_cases hk : lo + 1 + n = k
    · subst hk
      have hl : ∀ (l : List Nat) (u : List Slot), u.length = 16 → (l.foldl (fun u n => putSlot u (lo + 1 + n)
          (interpSamples (slotAt u lo).samples (slotAt u hi).samples (n + 1) (hi - lo))) u).length = 16 := by
        intro l
        induction l with
        | nil => exact fun _ h => h
        | cons a l ih => exact fun u hu => ih _ ((putSlot_length _ _ _).trans hu)
      rw [slotAt_putSlot_same (by rw [hl _ _ h.1]; omega), if_pos (by omega)]
      have : lo + 1 + n - lo = n + 1 := by omega
      rw [this]
    · rw [slotAt_putSlot_other hk, ih (by omega)]
      by_cases hc : lo < k ∧ k < lo + 1 + n
      · rw [if_pos hc, if_pos (by omega)]
      · rw [if_neg hc, if_neg (by omega)]

/-- What one run of the gap fill leaves in each slot. -/
theorem slotAt_fillRun {t : List Slot} (h : TableShape t) {lo hi : Nat} (hlo : lo < hi) (hh : hi < 16) (k : Nat) :
    slotAt (fillRun lo hi t) k =
      if lo < k ∧ k < hi then
        { set := true, samples := interpSamples (slotAt t lo).samples (slotAt t hi).samples (k - lo) (hi - lo) }
      else slotAt t k := by
  have := fillRun_partial h lo hi hh (hi - lo - 1) (by omega) k
  have e : lo + 1 + (hi - lo - 1) = hi := by omega
  rw [e] at this
  exact this

end Sys2Proof.Machine
end

