-- ==== Sys2Proof/Tests/Slice0.lean ====
section
/-! SUPPORT. Tests. Expected values come from spec/95_test_vectors.md (named at each test) or from the rule cited; the last section shows for every statement a state and operands that meet its hypotheses. -/

namespace Sys2Proof.Tests

open Sys2Proof Sys2Proof.Machine Sys2Proof.Closed

/-! ## Well-formedness: an ill-formed term for each check (R78) -/

theorem test_v_register_four_is_refused : ∀ i ∈ ([.pack 4 0, .pack 0 4, .unpack 4 0, .unpack 0 4, .vdump 4, .wtser 4,
    .wtemit 5 4] : List Instr), wellFormed Params.default i = false := by decide

theorem test_p_register_four_is_refused : ∀ i ∈ ([.requant 4 8, .resize 4 1, .chsel 4 0 0, .chsel 0 4 0, .trim 4 0 0 0,
    .trim 0 4 0 0, .pclone 4 0, .pclone 0 4, .norm 4 0, .morph 4 0 0 1 2, .morph 0 4 0 1 2, .morph 0 0 4 1 2,
    .wtins 0 4] : List Instr), wellFormed Params.default i = false := by decide

theorem test_register_three_is_accepted : ∀ i ∈ ([.pack 3 3, .morph 3 3 3 1 2, .wtemit 300 3, .wtins 99 3] : List Instr),
    wellFormed Params.default i = true := by decide

/-! ## Decoding: every constructor from a word the spec writes out (95_test_vectors.md T4, T6, T7, T9, T12, P1 to P4) -/

theorem test_decode_nop : decodeTableWord 64 0x0000000000000000 = some .nop := by decide
theorem test_decode_clrst : decodeTableWord 64 0x010000000000007F = some (.clrst 0x7F) := by decide
theorem test_decode_pack : decodeTableWord 64 0x1010000000000000 = some (.pack 1 0) := by decide
theorem test_decode_unpack : decodeTableWord 64 0x1121000000000000 = some (.unpack 2 1) := by decide
theorem test_decode_vdump : decodeTableWord 64 0x1201000000000000 = some (.vdump 1) := by decide
theorem test_decode_requant : decodeTableWord 64 0x2030000000000008 = some (.requant 3 8) := by decide
theorem test_decode_resize : decodeTableWord 64 0x2120000000000005 = some (.resize 2 5) := by decide
theorem test_decode_chsel : decodeTableWord 64 0x2210000000000001 = some (.chsel 1 0 1) := by decide
theorem test_decode_trim : decodeTableWord 64 0x2310000000800003 = some (.trim 1 0 2 3) := by decide
theorem test_decode_pclone : decodeTableWord 64 0x2432000000000000 = some (.pclone 3 2) := by decide
theorem test_decode_norm : decodeTableWord 64 0x2520000000008000 = some (.norm 2 32768) := by decide
theorem test_decode_morph : decodeTableWord 64 0x26321FFFFFFFFFFF = some (.morph 3 2 1 4194303 4194303) := by decide
theorem test_decode_wtclr : decodeTableWord 64 0x3000000000000000 = some .wtclr := by decide
theorem test_decode_wtins : decodeTableWord 64 0x310100000000000F = some (.wtins 15 1) := by decide
theorem test_decode_wtfill : decodeTableWord 64 0x3200000000000000 = some .wtfill := by decide
theorem test_decode_wtser : decodeTableWord 64 0x3320000000000000 = some (.wtser 2) := by decide
theorem test_decode_wtemit : decodeTableWord 64 0x3403000000000005 = some (.wtemit 5 3) := by decide
theorem test_decode_wtraw : decodeTableWord 64 0x3500000000000000 = some .wtraw := by decide

/-- T12: the illegal words. -/
theorem test_illegal_words : ∀ w ∈ [0x0000000000000001, 0x0100000000400000, 0x0200000000000000, 0xFFFFFFFFFFFFFFFF,
    0x1040000000000000, 0x1010100000000000, 0x2000000000400008], decodeTableWord 64 w = none := by decide

/-- R83's example. -/
theorem test_asm_trim : asmText (.trim 1 0 2 3) = "TRIM P1, P0, 2, 3" := by decide

/-! ## One step of each command -/

/-- The state an outcome goes on with (the tests use it only where there is one). -/
def after : Outcome → State
  | .next s => s
  | _ => State.reset

/-- The reset state with given buffers and STATUS. -/
def withBuffers (v : List (List Byte)) (p : List PcmBuffer) (st : BitVec 32) : State :=
  { State.reset with v := v, p := p, status := st }

/-- A mono 16-bit buffer. -/
def mono16 (x : List Sample) : PcmBuffer := { spc := x.length, ch := .mono, res := .r16, s := x }

/-- A stereo buffer. -/
def stereo (r : Resolution) (x : List Sample) : PcmBuffer := { spc := x.length / 2, ch := .stereo, res := r, s := x }

/-- Four PCM buffers, the first two given. -/
def pcm (a b : PcmBuffer) : State := withBuffers (List.replicate 4 []) [a, b, mono16 [77], mono16 []] 0

/-- Four value buffers, the first given. -/
def bytes (x : List Byte) : State := withBuffers [x, [], [], []] (List.replicate 4 (mono16 [])) 0

theorem test_nop : (after (exec .nop (bytes [1]))).v = [[1], [], [], []] := by decide

/-- P4 row 7. -/
theorem test_clrst : (after (exec (.clrst 0x40) (withBuffers [] [] 0x78))).status = 0x38 := by decide

/-- S1. -/
theorem test_pack_seven : (after (exec (.pack 1 0) (bytes [0x81, 0x02, 0x83, 0x04, 0x85, 0x06, 0x87]))).readV 1 =
    [0x55, 0x01, 0x02, 0x03, 0x04, 0x05, 0x06, 0x07] := by decide
/-- T1: a full run and a run of one. -/
theorem test_pack_eight : (after (exec (.pack 0 0) (bytes (List.replicate 8 0xFF)))).readV 0 =
    [0x7F, 0x7F, 0x7F, 0x7F, 0x7F, 0x7F, 0x7F, 0x7F, 0x01, 0x7F] := by decide

/-- T2: the high bit comes from the pack byte alone. -/
theorem test_unpack_high_bit : (after (exec (.unpack 1 0) (bytes [0x80, 0x81, 0x02]))).readV 1 = [0x01, 0x02] := by decide
/-- T2: a lone pack byte at the end gives nothing. -/
theorem test_unpack_lone : (after (exec (.unpack 1 0) (bytes [0x7F, 1, 2, 3, 4, 5, 6, 7, 1]))).readV 1 =
    [0x81, 0x82, 0x83, 0x84, 0x85, 0x86, 0x87] := by decide

/-- R108. -/
theorem test_vdump : (after (exec (.vdump 0) { bytes [0x55, 0xFF] with out := [9] })).out = [9, 0x55, 0xFF] := by decide

/-- T4, command level. -/
theorem test_requant_lowers :
    (after (exec (.requant 0 8) (pcm (mono16 [0, 128, -1, -256, 32767, -32768]) (mono16 [])))).readP 0 =
      { spc := 6, ch := .mono, res := .r8, s := [128, 129, 127, 126, 255, 0] } := by decide
/-- T4, command level: resolution 12. -/
theorem test_requant_twelve :
    after (exec (.requant 0 12) (pcm (mono16 [1]) (mono16 []))) =
      { pcm (mono16 [1]) (mono16 []) with status := 0x02 } := by decide +kernel

/-- T5: stereo, 3 to 5 samples, then indices 0, 1, 2, 3. -/
theorem test_resize_stereo :
    (after (exec (.resize 0 4) (pcm (stereo .r16 [0, 1000, 10, 2000, 20, 3000]) (mono16 [])))).readP 0 =
      { spc := 4, ch := .stereo, res := .r16, s := [0, 1000, 5, 1500, 10, 2000, 15, 2500] } := by decide
/-- T5: `mean16` cuts its operands to 16 bits and halves toward zero. -/
theorem test_resize_means : ((after (exec (.resize 0 3) (pcm (mono16 [70000, 70002]) (mono16 [])))).readP 0).s =
    [70000, 4465, 70002] ∧ mean16 (-3) 0 = -1 ∧ mean16 (-1) 0 = 0 := by decide

/-- T6: channel 1. -/
theorem test_chsel : (after (exec (.chsel 1 0 1) (pcm (stereo .r16 [0, 1000, 10, 2000, 20, 3000]) (mono16 [])))).readP 1 =
    mono16 [1000, 2000, 3000] := by decide
/-- T6: a channel that does not exist. -/
theorem test_chsel_default :
    let s := after (exec (.chsel 1 0 2) (pcm (stereo .r16 [0, 1000, 10, 2000, 20, 3000]) (mono16 [])))
    s.readP 1 = mono16 [0, 10, 20] ∧ s.status = 0x04 := by decide

/-- T6: stereo 24-bit. -/
theorem test_trim : (after (exec (.trim 1 0 1 1) (pcm (stereo .r24 [1, 2, 3, 4, 5, 6]) (mono16 [])))).readP 1 =
    stereo .r24 [3, 4] := by decide
/-- T6: beyond the source. -/
theorem test_trim_beyond :
    let s := after (exec (.trim 1 0 2 2) (pcm (stereo .r24 [1, 2, 3, 4, 5, 6]) (mono16 [1])))
    s.readP 1 = PcmBuffer.default ∧ s.status = 0x08 := by decide

/-- T6. -/
theorem test_pclone : (after (exec (.pclone 2 0) (pcm (stereo .r32 [5, -5]) (mono16 [])))).readP 2 =
    stereo .r32 [5, -5] := by decide

/-- T7 row 1. -/
theorem test_norm : ((after (exec (.norm 0 32768) (pcm (mono16 [100, -50, 25]) (mono16 [])))).readP 0).s =
    [32767, -16383, 8191] := by decide
/-- T7: the target is clamped, with `OOR`. -/
theorem test_norm_clamped :
    let s := after (exec (.norm 0 40000) (pcm (mono16 [100, -50, 25]) (mono16 [])))
    (s.readP 0).s = [32767, -16383, 8191] ∧ s.status = 0x08 := by decide

/-- T7: one third. -/
theorem test_morph :
    ((after (exec (.morph 2 0 1 1 3) (pcm (mono16 [0, 100, -100, 7]) (mono16 [100, 0, 100, 8])))).readP 2).s =
      [33, 66, -33, 7] := by decide
/-- T7: a zero denominator leaves the destination. -/
theorem test_morph_refused :
    let s := after (exec (.morph 2 0 1 1 0) (pcm (mono16 [1]) (mono16 [2])))
    s.readP 2 = mono16 [77] ∧ s.status = 0x08 := by decide

/-- A table with slot 0 all `a` and slot 15 all `b`, both set. -/
def twoSlots (a b : Sample16) : State :=
  { State.reset with wt := putSlot (putSlot emptyTable 0 (List.replicate 1024 a)) 15 (List.replicate 1024 b) }

/-- R180. -/
theorem test_wtclr : (after (exec .wtclr (twoSlots 5 6))).wt = emptyTable := by rfl

/-- T9: `[0, 1024]` grows to the ramp. -/
theorem test_wtins :
    let w := (slotAt (after (exec (.wtins 2 0) (pcm (mono16 [0, 1024]) (mono16 [])))).wt 2).samples
    w.take 3 = [0, 1, 2] ∧ w.getD 1023 0 = 1023 := by decide +kernel
/-- T9: a stereo source is refused. -/
theorem test_wtins_stereo :
    let s := after (exec (.wtins 0 0) (pcm (stereo .r16 [1, 2, 3, 4]) (mono16 [])))
    (slotAt s.wt 0).set = false ∧ s.status = 0x10 := by decide

/-- T8 row 2: slots 8 and 14 between 1000 and -2000. -/
theorem test_wtfill :
    let t := (after (exec .wtfill (twoSlots 1000 (-2000)))).wt
    (slotAt t 8).samples.getD 0 0 = -600 ∧ (slotAt t 14).samples.getD 7 0 = -1800 := by decide +kernel
/-- T8 last row: slot 0 unset. -/
theorem test_wtfill_no_anchor :
    (after (exec .wtfill (pcm (mono16 []) (mono16 [])))).status = 0x20 := by decide

/-- R192: 1000 is `03 E8`. -/
theorem test_wtser : ((after (exec (.wtser 1) (twoSlots 1000 (-2000)))).readV 1).take 4 = [0x03, 0xE8, 0x03, 0xE8] := by
  decide +kernel
/-- T11: what the checksum adds for one sample, and its sum modulo `2^16`. -/
theorem test_checksum : checksum [0x1500] = 0x0015 ∧ checksum [-1, 0x0102] = 0x0200 := by decide

/-- T11: slot byte and name masked. -/
theorem test_wtemit :
    let s := after (exec (.wtemit 0x185 0) (bytes [0xC1, 0x42, 0x43, 0x44, 0x45, 0x46, 0x47, 0x48, 0xFF]))
    s.out.take 20 = [0xF0, 0x01, 0x31, 0x6A, 0x6C, 0x01, 0x6B, 0x05, 0x41, 0x42, 0x43, 0x44, 0x45, 0x46, 0x47, 0x48, 0x00,
      0x00, 0x00, 0x00] ∧ s.status = 0x28 := by decide +kernel
/-- T11 rows 4 and 5: which bits of `CK` the frame carries. -/
theorem test_frame_checksum_bytes : checksumLow 0xF400 = 0x00 ∧ checksumHigh 0xF400 = 0x74 ∧
    checksumLow 0x00FC = 0x7C ∧ checksumHigh 0x00FC = 0x00 := by decide

/-- T11: -2 is `FF FE`. -/
theorem test_wtraw : (after (exec .wtraw (twoSlots (-2) 0))).out.take 4 = [0xFF, 0xFE, 0xFF, 0xFE] := by decide +kernel

/-! ## The host port -/

/-- R57: a byte above 255 and an odd stereo load are refused. -/
theorem test_host_load_refused :
    (State.reset.hostLoadV 0 [1, 256]).v = State.reset.v ∧ (State.reset.hostLoadP 0 2 16 [1, 2, 3]).p = State.reset.p ∧
    (State.reset.hostLoadP 1 2 16 [1, -2]).p = [mono16 [], stereo .r16 [1, -2], mono16 [], mono16 []] := by decide

/-- R240: `OUT` survives `Reset()`. -/
theorem test_reset_keeps_out : { bytes [1] with out := [7] }.hostReset.out = [7] := by decide

/-- The word `withFetchWord` places is the next one run (T12: `CLRST 0x7F`). -/
theorem test_fetch : (after (step ((withBuffers [] [] 0x7F).withFetchWord 64 0x010000000000007F))).status = 0 := by decide

/-! ## Hypotheses met: one state for most statements

`demo` has value buffers of 7, 8, 0 and 4 bytes; mono 16-bit buffers 0 and 1 of 4 samples, a stereo 8-bit buffer 2 of
3 samples per channel, a mono 16-bit buffer 3 of 1 sample; slots 0 and 4 set; `ILL` set. -/

def demo : State where
  v := [[0x81, 0x02, 0x83, 0x04, 0x85, 0x06, 0x87], [0x55, 1, 2, 3, 4, 5, 6, 7], [], [0x54, 0x45, 0x53, 0x54]]
  p := [mono16 [0, 100, -100, 7], mono16 [100, 0, 100, 8], stereo .r8 [0, 1, 127, 128, 255, 3], mono16 [5]]
  wt := putSlot (putSlot emptyTable 0 (List.replicate 1024 1000)) 4 (List.replicate 1024 7)
  ck := 0
  status := 0x40
  out := [1, 2]
  cfg := Params.default
  host := []
  replies := []

theorem demo_wf : demo.Wf := by decide +kernel

theorem witness_reset_wf : State.reset.Wf := by decide +kernel

/-- `DecodeOfEncodeIsTheCommand`, `EncodeOfDecodeIsTheWord`. -/
theorem witness_decode : wellFormed Params.default (.morph 3 2 1 4194303 4194303) = true ∧
    decode Params.default 0x26321FFFFFFFFFFF = .ok (.morph 3 2 1 4194303 4194303) := ⟨by decide, by rfl⟩

/-- `ReservedOpcodeSetsIllOnly`: the ends of the four ranges. -/
theorem witness_reserved : ∀ op ∈ [0x02, 0x0F, 0x13, 0x1F, 0x27, 0x2F, 0x36, 0xFF],
    let w : Word := BitVec.ofNat 64 (op * 2 ^ 56)
    { demo with host := [.issue w] }.host = [.issue w] ∧ (let o := w.toNat / 2 ^ 56
      (0x02 ≤ o ∧ o ≤ 0x0F) ∨ (0x13 ≤ o ∧ o ≤ 0x1F) ∨ (0x27 ≤ o ∧ o ≤ 0x2F) ∨ 0x36 ≤ o) := by decide

/-- `UnusedBitSetsIllOnly`: for every row, a word with one unused bit set. -/
theorem witness_unused : ∀ row ∈ ([(0x0000000000000001, 0x00, 0xFFFFFFFFFFFFFFFF),
    (0x0100000000400000, 0x01, 0xFFFFFFFFFFC00000), (0x1010100000000000, 0x10, 0xFF00FFFFFFFFFFFF),
    (0x1100000000000001, 0x11, 0xFF00FFFFFFFFFFFF), (0x1210000000000000, 0x12, 0xFFF0FFFFFFFFFFFF),
    (0x2000000000400008, 0x20, 0xFF0FFFFFFFC00000), (0x2101000000000000, 0x21, 0xFF0FFFFFFFC00000),
    (0x2200100000000000, 0x22, 0xFF00FFFFFFC00000), (0x2300100000000000, 0x23, 0xFF00F00000000000),
    (0x2400000000000001, 0x24, 0xFF00FFFFFFFFFFFF), (0x2501000000000000, 0x25, 0xFF0FFFFFFFC00000),
    (0x3080000000000000, 0x30, 0xFFFFFFFFFFFFFFFF), (0x3110000000000000, 0x31, 0xFFF0FFFFFFC00000),
    (0x3200000000000001, 0x32, 0xFFFFFFFFFFFFFFFF), (0x3301000000000000, 0x33, 0xFF0FFFFFFFFFFFFF),
    (0x3400000000400000, 0x34, 0xFFF0FFFFFFC00000), (0x3500000000000001, 0x35, 0xFFFFFFFFFFFFFFFF)] :
      List (Word × Nat × Word)),
    row.1.toNat / 2 ^ 56 = row.2.1 ∧ row.1 &&& row.2.2 ≠ BitVec.ofNat 64 (row.2.1 * 2 ^ 56) := by decide

/-- `RegisterOutOfRangeSetsIllOnly`: register 4 in each field of each use. -/
theorem witness_register : demo.cfg.nv = 4 ∧ demo.cfg.np = 4 ∧
    (0x1040000000000000 / 2 ^ 56 = 0x10 ∧ 0x1040000000000000 / 2 ^ 52 % 16 = 4) ∧
    (0x3404000000000000 / 2 ^ 56 = 0x34 ∧ 0x3404000000000000 / 2 ^ 48 % 16 = 4) ∧
    (0x2640000000000000 / 2 ^ 56 = 0x26 ∧ 0x2640000000000000 / 2 ^ 52 % 16 = 4) ∧
    (0x3104000000000000 / 2 ^ 56 = 0x31 ∧ 0x3104000000000000 / 2 ^ 48 % 16 = 4) ∧
    (0x2600400000000000 / 2 ^ 56 = 0x26 ∧ 0x2600400000000000 / 2 ^ 44 % 16 = 4) := by decide

/-- `StepRunsTheDecodedCommand`, both clauses. -/
theorem witness_step : { demo with host := [.issue 0x1010000000000000] }.host = [.issue 0x1010000000000000] ∧
    decode demo.cfg 0x1010000000000000 = .ok (.pack 1 0) ∧ 0x1010000000000000 < 2 ^ 64 := ⟨rfl, rfl, by decide⟩

/-- `IdleBlockKeepsAllState`. -/
theorem witness_idle : State.reset.host = [] := rfl

/-- `EveryStepKeepsTheStorageInvariants`, `NoRunEverStops`, `OutOnlyGrows`: a step that emits. -/
theorem witness_emitting_step : { demo with host := [.issue 0x1201000000000000] }.Wf ∧
    step { demo with host := [.issue 0x1201000000000000] } =
      .next { demo with out := [1, 2, 0x55, 1, 2, 3, 4, 5, 6, 7] } := ⟨demo_wf, rfl⟩

/-- `ResetStateHasTheStorageInvariants`: the smallest, the default and the largest parameters. -/
theorem witness_legal_parameters : ∀ c ∈ ([⟨112348, 1024, 1, 1⟩, Params.default, ⟨2 ^ 22 - 1, 2 ^ 22 - 1, 16, 16⟩] :
    List Params), c.Legal := by decide

/-- `CommandsWriteOnlyTheirDestinations`, `FlagsAreSticky`, `FlagsNeverChangeData`: a command that answers a next state,
is not `CLRST`, and starts with a flag set. -/
theorem witness_next : exec (.vdump 3) demo = .next { demo with out := [1, 2, 0x54, 0x45, 0x53, 0x54] } ∧
    (∀ m, Instr.vdump 3 ≠ .clrst m) ∧ demo.status.getLsbD 6 = true := ⟨rfl, by simp, by decide⟩

/-- `NopChangesNothing`, third clause: the lowest and the highest word with opcode 0. -/
theorem witness_nop : ∀ w ∈ ([0x0000000000000001, 0x00FFFFFFFFFFFFFF] : List Word), w.toNat / 2 ^ 56 = 0 ∧ w ≠ 0 := by
  intro x h
  simp only [List.mem_cons, List.not_mem_nil, or_false] at h
  rcases h with rfl | rfl <;> exact ⟨by rfl, by decide⟩

/-- The statements that ask no more than a command CORE can be given. -/
theorem witness_ready : ∀ i ∈ ([.clrst 0x7F, .pack 1 0, .unpack 2 1, .vdump 1, .requant 0 8, .chsel 1 2 1, .chsel 1 2 2,
    .pclone 3 2, .norm 0 32768, .norm 0 40000, .wtser 1, .wtemit 5 3, .wtemit 200 3] : List Instr), Ready demo i := by
  intro i h
  refine ⟨demo_wf, ?_⟩
  revert i h
  decide

/-- `UnpackUndoesPack`. -/
theorem witness_unpack_pack : Ready demo (.pack 2 0) ∧ Ready demo (.unpack 3 2) ∧
    (demo.readV 0).length + ((demo.readV 0).length + 6) / 7 ≤ demo.cfg.vcap :=
  ⟨⟨demo_wf, by decide +kernel⟩, ⟨demo_wf, by decide +kernel⟩, by decide +kernel⟩

/-- `RequantConvertsEverySample`: each legal resolution. -/
theorem witness_requant : ∀ r ∈ ([8, 16, 24, 32] : List Imm), Ready demo (.requant 2 r) ∧
    (r.toNat = 8 ∨ r.toNat = 16 ∨ r.toNat = 24 ∨ r.toNat = 32) := by
  intro x h
  simp only [List.mem_cons, List.not_mem_nil, or_false] at h
  rcases h with rfl | rfl | rfl | rfl <;> exact ⟨⟨demo_wf, by decide⟩, by decide⟩

/-- `RequantIgnoresOtherResolutions`: the neighbours of legal resolutions. -/
theorem witness_requant_ignored : ∀ r ∈ ([0, 7, 9, 12, 33, 0x3FFFFF] : List Imm), Ready demo (.requant 2 r) ∧
    r.toNat ≠ 8 ∧ r.toNat ≠ 16 ∧ r.toNat ≠ 24 ∧ r.toNat ≠ 32 := by
  intro x h
  simp only [List.mem_cons, List.not_mem_nil, or_false] at h
  rcases h with rfl | rfl | rfl | rfl | rfl | rfl <;> exact ⟨⟨demo_wf, by decide⟩, by decide⟩

theorem test_canonical8 : ∀ x ∈ (stereo .r8 [0, 1, 127, 128, 255, 3]).s, canonical .r8 x = true := by
  simp [stereo, canonical, Resolution.lowest, Resolution.highest]

theorem test_canonical16 : ∀ x ∈ (mono16 [0, 100, -100, 7]).s, canonical .r16 x = true := by
  simp [mono16, canonical, Resolution.lowest, Resolution.highest, Resolution.bits]

/-- `RequantKeepsSamplesCanonical`, `RequantRoundTrips`: canonical buffers of 8 and of 16 bits. -/
theorem witness_canonical : Ready demo (.requant 2 8) ∧ Ready demo (.requant 0 8) ∧ Resolution.r8.bits = (8 : Imm).toNat ∧
    (demo.readP 2).res = .r8 ∧ (∀ x ∈ (demo.readP 2).s, canonical .r8 x = true) ∧
    (demo.readP 0).res = .r16 ∧ (∀ x ∈ (demo.readP 0).s, canonical .r16 x = true) :=
  ⟨⟨demo_wf, by decide⟩, ⟨demo_wf, by decide⟩, by rfl, by rfl, fun x h => test_canonical8 x h, by rfl,
    fun x h => test_canonical16 x h⟩

/-- `ResizeGrowsThenTakesNearestIndices`: growing, shrinking, emptying and above the cap. -/
theorem witness_resize : ∀ n ∈ ([0, 1, 4, 9, 0x3FFFFF] : List Imm), Ready demo (.resize 2 n) ∧ 2 ≤ (demo.readP 2).spc := by
  intro x h
  simp only [List.mem_cons, List.not_mem_nil, or_false] at h
  rcases h with rfl | rfl | rfl | rfl | rfl <;> exact ⟨⟨demo_wf, by decide⟩, by decide⟩

/-- `ResizeLeavesShortBuffersAlone`: a buffer of 1 sample, within and above the cap. -/
theorem witness_resize_short : ∀ n ∈ ([4, 0x3FFFFF] : List Imm), Ready demo (.resize 3 n) ∧ (demo.readP 3).spc < 2 := by
  intro x h
  simp only [List.mem_cons, List.not_mem_nil, or_false] at h
  rcases h with rfl | rfl <;> exact ⟨⟨demo_wf, by decide⟩, by decide⟩

/-- `ResizeByWholeFactorSelects`: factors 1 and 2 of 4 samples. -/
theorem witness_resize_factor : Ready demo (.resize 0 4) ∧ Ready demo (.resize 0 2) ∧ 2 ≤ (demo.readP 0).spc ∧
    (demo.readP 0).spc = 1 * (4 : Imm).toNat ∧ (demo.readP 0).spc = 2 * (2 : Imm).toNat ∧ 1 ≤ (2 : Imm).toNat :=
  ⟨⟨demo_wf, by decide +kernel⟩, ⟨demo_wf, by decide +kernel⟩, by decide +kernel, by decide +kernel, by decide +kernel, by decide +kernel⟩

/-- `TrimCopiesTheRange` at the end of the source, `TrimBeyondTheSourceGivesTheDefaultBuffer` one past it. -/
theorem witness_trim : Ready demo (.trim 1 2 1 2) ∧ (1 : Imm).toNat + (2 : Imm).toNat ≤ (demo.readP 2).spc ∧
    Ready demo (.trim 1 2 1 3) ∧ (demo.readP 2).spc < (1 : Imm).toNat + (3 : Imm).toNat :=
  ⟨⟨demo_wf, by decide +kernel⟩, by decide +kernel, ⟨demo_wf, by decide +kernel⟩, by decide +kernel⟩

/-- `ClonesShareNothing`. -/
theorem witness_clones : Ready demo (.pclone 1 0) ∧ (1 : RegField) ≠ 0 ∧
    (Instr.norm 1 5 = .requant 1 5 ∨ Instr.norm 1 5 = .resize 1 5 ∨ Instr.norm 1 5 = .norm 1 5) :=
  ⟨⟨demo_wf, by decide +kernel⟩, by decide +kernel, .inr (.inr rfl)⟩

/-- `NormScalesByTheExactFraction`: a peak of 100, and the peak 0 of no samples. -/
theorem witness_peak : IsPeak (mono16 [0, 100, -100, 7]).s 100 ∧ (demo.readP 0).s = (mono16 [0, 100, -100, 7]).s ∧
    IsPeak [] 0 := by
  refine ⟨?_, by rfl, ?_⟩ <;> simp [IsPeak, mono16]

/-- `NormNeverExceedsFullScale`, `NormIsIdempotent`. -/
theorem witness_norm : Ready demo (.norm 0 16384) ∧ ∃ x ∈ (demo.readP 0).s, x ≠ 0 :=
  ⟨⟨demo_wf, by decide +kernel⟩, by decide +kernel⟩

/-- `MorphInterpolatesEverySample`, `MorphStaysBetweenItsSources`: inside and at both ends of the fraction. -/
theorem witness_morph : ∀ f ∈ ([(0, 5), (1, 2), (5, 5)] : List (Imm × Imm)), Ready demo (.morph 2 0 1 f.1 f.2) ∧
    f.2.toNat ≠ 0 ∧ f.1.toNat ≤ f.2.toNat ∧
    (demo.readP 0).spc = (demo.readP 1).spc ∧ (demo.readP 0).ch = (demo.readP 1).ch := by
  intro x h
  simp only [List.mem_cons, List.not_mem_nil, or_false] at h
  rcases h with rfl | rfl | rfl <;> exact ⟨⟨demo_wf, by decide⟩, by decide⟩

/-- `MorphRefusalsWriteOnlyAFlag`: each reason of each clause. -/
theorem witness_morph_refused : Ready demo (.morph 2 0 1 0 0) ∧ Ready demo (.morph 2 0 1 3 2) ∧
    (2 : Imm).toNat < (3 : Imm).toNat ∧ Ready demo (.morph 1 0 2 1 2) ∧ (demo.readP 0).spc ≠ (demo.readP 2).spc ∧
    (demo.readP 0).ch ≠ (demo.readP 2).ch :=
  ⟨⟨demo_wf, by decide +kernel⟩, ⟨demo_wf, by decide +kernel⟩, by decide +kernel, ⟨demo_wf, by decide +kernel⟩, by decide +kernel, by decide +kernel⟩

/-- `MorphOfABufferWithItselfChangesNothing`. -/
theorem witness_morph_self : Ready demo (.morph 0 0 0 1 2) ∧ (2 : Imm).toNat ≠ 0 ∧ (1 : Imm).toNat ≤ (2 : Imm).toNat :=
  ⟨⟨demo_wf, by decide +kernel⟩, by decide +kernel, by decide +kernel⟩

/-- `WtinsStoresTheConvertedSamples`: the first and the last slot. -/
theorem witness_wtins : ∀ k ∈ ([0, 15] : List Imm), Ready demo (.wtins k 0) ∧ k.toNat ≤ 15 ∧
    (demo.readP 0).ch = .mono ∧ 2 ≤ (demo.readP 0).spc := by
  intro x h
  simp only [List.mem_cons, List.not_mem_nil, or_false] at h
  rcases h with rfl | rfl <;> exact ⟨⟨demo_wf, by decide⟩, by decide⟩

/-- `WtinsRefusalsWriteOnlyAFlag`: slot 16, a stereo source, a source of 1 sample. -/
theorem witness_wtins_refused : Ready demo (.wtins 16 0) ∧ 15 < (16 : Imm).toNat ∧ Ready demo (.wtins 15 2) ∧
    (demo.readP 2).ch ≠ .mono ∧ Ready demo (.wtins 15 3) ∧ (demo.readP 3).spc < 2 :=
  ⟨⟨demo_wf, by decide +kernel⟩, by decide +kernel, ⟨demo_wf, by decide +kernel⟩, by decide +kernel, ⟨demo_wf, by decide +kernel⟩, by decide +kernel⟩

/-- `WtinsIsCloneResizeRequant`. -/
theorem witness_wtins_clone : Ready demo (.wtins 15 0) ∧ Ready demo (.pclone 3 0) ∧ (15 : Imm).toNat ≤ 15 ∧
    (demo.readP 0).ch = .mono ∧ 2 ≤ (demo.readP 0).spc :=
  ⟨⟨demo_wf, by decide +kernel⟩, ⟨demo_wf, by decide +kernel⟩, by decide +kernel, by decide +kernel, by decide +kernel⟩

/-- `WtfillInterpolatesEveryGap`: slot 0 set, slot 15 unset, the gaps 0 to 4 and 4 to 15 at their ends. -/
theorem witness_wtfill : demo.Wf ∧ (slotAt demo.wt 0).set = true ∧ (slotAt demo.wt 15).set = false ∧
    (slotAt demo.wt 4).set = true ∧ (∀ m < 4, 0 < m → (slotAt demo.wt m).set = false) ∧
    (∀ m < 15, 4 < m → (slotAt demo.wt m).set = false) := ⟨demo_wf, by decide +kernel, by decide +kernel, by decide +kernel, by decide +kernel, by decide +kernel⟩

/-- `WtfillNeedsSlotZero`, `WtfillIsAllOrNothing`, `WtfillTwiceIsOnce`. -/
theorem witness_wtfill_unset : State.reset.Wf ∧ (slotAt State.reset.wt 0).set = false :=
  ⟨witness_reset_wf, by decide +kernel⟩

/-- `WtfillFromSlotZeroAloneCopiesIt`. -/
theorem witness_wtfill_alone :
    let s := State.reset.setWt (putSlot emptyTable 0 (List.replicate 1024 7))
    s.Wf ∧ (slotAt s.wt 0).set = true ∧ ∀ k < 16, 1 ≤ k → (slotAt s.wt k).set = false := by decide +kernel

/-- `FrameIsSevenBitBetweenItsMarkers`, `WtemitAppendsTheFrame`: a legal buffer for the payload clause. -/
theorem witness_wtemit : Ready demo (.wtemit 5 3) ∧ (0 : RegField).toNat < demo.cfg.nv :=
  ⟨⟨demo_wf, by decide +kernel⟩, by decide +kernel⟩

/-- `WtrawAppendsEverySample`: `demo_wf` is its hypothesis. -/
theorem witness_wtraw : demo.Wf := demo_wf

/-- `HostLoadsWriteTheBuffer`: the last buffers and the ends of the ranges of bytes and samples. -/
theorem witness_host_load : (3 < demo.cfg.nv ∧ [0, 255].length ≤ demo.cfg.vcap ∧ ∀ b ∈ [0, 255], b ≤ 255) ∧
    (3 < demo.cfg.np ∧ [-2147483648, 2147483647].length ≤ demo.cfg.pcap ∧
      [-2147483648, 2147483647].length % Channels.stereo.count = 0 ∧
      ∀ v ∈ ([-2147483648, 2147483647] : List Int), -2 ^ 31 ≤ v ∧ v ≤ 2 ^ 31 - 1) := by decide

/-- `RefusedHostLoadsChangeNothing`: each reason at its boundary (a length above a capacity is met by a list of that
length, which is not written out). -/
theorem witness_host_refused : demo.cfg.nv ≤ 4 ∧ demo.cfg.np ≤ 4 ∧ (∃ b ∈ [256], 255 < b) ∧
    (demo.cfg.vcap < (List.replicate 131073 0).length) ∧ (demo.cfg.pcap < (List.replicate 65537 (0 : Int)).length) ∧
    [(1 : Int)].length % 2 ≠ 0 ∧ (∃ v ∈ ([-2147483649] : List Int), v < -2 ^ 31) ∧
    (∃ v ∈ ([2147483648] : List Int), 2 ^ 31 - 1 < v) :=
  ⟨by decide, by decide, by decide, by rw [List.length_replicate]; decide, by rw [List.length_replicate]; decide,
    by decide, by decide, by decide⟩

/-- `HostReadsAnswerAndChangeNothing`, `ResetMoveRestoresTheResetValues`: the last buffers, and each move. -/
theorem witness_host_moves : demo.v[3]? = some [0x54, 0x45, 0x53, 0x54] ∧ demo.p[3]? = some (mono16 [5]) ∧
    ∀ m ∈ ([.readV 3, .readP 3, .readWT, .readCK, .readStatus, .reset] : List HostMove),
      { demo with host := [m] }.host = [m] := by decide

end Sys2Proof.Tests
end

section
/-! The storage invariants through every step (10_state.md rules R21, R24, R27, R32): each command, then the issue of a
word, then each move of the host, answers a next state that has them. -/

namespace Sys2Proof.Machine

/-! ## Outcomes with the invariants -/

/-- The outcome is a next state, and it has the storage invariants. -/
def AnswersWf (o : Outcome) : Prop := ∃ t, o = .next t ∧ t.Wf

theorem State.Wf.answersWf {s : State} (h : s.Wf) : AnswersWf (.next s) := ⟨s, rfl, h⟩

theorem AnswersWf.wf_of_eq_next {o : Outcome} {t : State} (h : AnswersWf o) (ht : o = .next t) : t.Wf := by
  obtain ⟨u, hu, hwf⟩ := h
  obtain rfl : u = t := Host.Outcome.next.inj (hu.symm.trans ht)
  exact hwf

theorem State.Wf.tableShape {s : State} (h : s.Wf) : TableShape s.wt := ⟨h.wt_length, h.slot_length⟩

theorem State.Wf.setWt_of_tableShape {s : State} (h : s.Wf) {t : List Slot} (ht : TableShape t) : (s.setWt t).Wf :=
  h.setWt ht.1 ht.2

/-! ## The commands -/

section Commands

variable {s : State}

theorem execNop_answersWf (h : s.Wf) : AnswersWf (execNop s) := h.answersWf

theorem execClrst_answersWf (h : s.Wf) (mask : Imm) : AnswersWf (execClrst mask s) := (h.clearFlags mask).answersWf

theorem execPack_answersWf (h : s.Wf) (d a : RegField) : AnswersWf (execPack d a s) := (h.storeV d _).answersWf

theorem execUnpack_answersWf (h : s.Wf) (d a : RegField) : AnswersWf (execUnpack d a s) := (h.storeV d _).answersWf

theorem execVdump_answersWf (h : s.Wf) (a : RegField) : AnswersWf (execVdump a s) := (h.emit _).answersWf

theorem execRequant_answersWf (h : s.Wf) (d : RegField) (res : Imm) : AnswersWf (execRequant d res s) := by
  unfold execRequant
  split
  · exact (h.raise .ires).answersWf
  · exact (h.writeP d (requantBuffer_wf (State.readP_wf h d) _)).answersWf

/-- The request is capped at `sizeCap` before the buffer is written, so `PCAP` holds (R136). -/
theorem execResize_answersWf (h : s.Wf) (d : RegField) (n : Imm) : AnswersWf (execResize d n s) := by
  have hflag := h.raiseIf (decide (sizeCap s.cfg (s.readP d) < n.toNat)) .ovf
  simp only [execResize]
  split
  · exact hflag.answersWf
  · exact (hflag.writeP d (resizeBuffer_wf (min_le_right _ _))).answersWf

theorem execChsel_answersWf (h : s.Wf) (d a : RegField) (c : Imm) : AnswersWf (execChsel d a c s) :=
  ((h.raiseIf _ .ich).writeP d (channelBuffer_wf (State.readP_wf h a) _)).answersWf

theorem execTrim_answersWf (h : s.Wf) (d a : RegField) (start size : Imm) :
    AnswersWf (execTrim d a start size s) := by
  simp only [execTrim]
  split
  · exact ((h.raise .oor).writeP d (PcmBuffer.default_wf _)).answersWf
  next hfits => exact (h.writeP d (trimBuffer_wf (State.readP_wf h a) (not_lt.mp hfits))).answersWf

theorem execPclone_answersWf (h : s.Wf) (d a : RegField) : AnswersWf (execPclone d a s) :=
  (h.writeP d (State.readP_wf h a)).answersWf

theorem execNorm_answersWf (h : s.Wf) (d : RegField) (t : Imm) : AnswersWf (execNorm d t s) :=
  ((h.raiseIf _ .oor).writeP d (normBuffer_wf (State.readP_wf h d) _)).answersWf

/-- Past the layout test of R172 the sources have one length, so the morph keeps that of the start buffer. -/
theorem execMorph_answersWf (h : s.Wf) (d a b : RegField) (num den : Imm) :
    AnswersWf (execMorph d a b num den s) := by
  simp only [execMorph]
  split
  · exact (h.raise .oor).answersWf
  split
  · exact (h.raise .lay).answersWf
  next hlay =>
    obtain ⟨hspc, hch⟩ := not_or.mp hlay
    have hwf := morphBuffer_wf (State.readP_wf h a) (State.readP_wf h b) (not_not.mp hspc) (not_not.mp hch)
      num.toNat den.toNat
    exact (h.writeP d hwf).answersWf

theorem execWtclr_answersWf (h : s.Wf) : AnswersWf (execWtclr s) :=
  (h.setWt emptyTable_length emptyTable_slot_length).answersWf

/-- Only a mono source is resized to 1024 samples in all; the layout test of R181 lets no other through. -/
theorem execWtins_answersWf (h : s.Wf) (slot : Imm) (a : RegField) : AnswersWf (execWtins slot a s) := by
  simp only [execWtins]
  split
  · exact (h.raise .oor).answersWf
  split
  · exact (h.raise .lay).answersWf
  next hlay =>
    have hmono := not_not.mp (not_or.mp hlay).1
    exact (h.setWt_of_tableShape (h.tableShape.putSlot _ (slotSamples_length hmono))).answersWf

theorem execWtfill_answersWf (h : s.Wf) : AnswersWf (execWtfill s) := by
  unfold execWtfill
  split
  · exact (h.setWt_of_tableShape h.tableShape.fillTable).answersWf
  · exact (h.raise .inc).answersWf

theorem execWtser_answersWf (h : s.Wf) (d : RegField) : AnswersWf (execWtser d s) :=
  (((h.raiseIf _ .inc).setCk _).storeV d _).answersWf

theorem execWtemit_answersWf (h : s.Wf) (slotbyte : Imm) (a : RegField) : AnswersWf (execWtemit slotbyte a s) :=
  ((((h.setCk _).raiseIf _ .inc).raiseIf _ .oor).emit _).answersWf

theorem execWtraw_answersWf (h : s.Wf) : AnswersWf (execWtraw s) := ((h.raiseIf _ .inc).emit _).answersWf

/-- Every command answers a next state with the invariants, whatever register numbers it names. -/
theorem exec_answersWf (h : s.Wf) (i : Instr) : AnswersWf (exec i s) := by
  cases i with
  | nop => exact execNop_answersWf h
  | clrst mask => exact execClrst_answersWf h mask
  | pack d a => exact execPack_answersWf h d a
  | unpack d a => exact execUnpack_answersWf h d a
  | vdump a => exact execVdump_answersWf h a
  | requant d res => exact execRequant_answersWf h d res
  | resize d n => exact execResize_answersWf h d n
  | chsel d a c => exact execChsel_answersWf h d a c
  | trim d a start size => exact execTrim_answersWf h d a start size
  | pclone d a => exact execPclone_answersWf h d a
  | norm d t => exact execNorm_answersWf h d t
  | morph d a b num den => exact execMorph_answersWf h d a b num den
  | wtclr => exact execWtclr_answersWf h
  | wtins slot a => exact execWtins_answersWf h slot a
  | wtfill => exact execWtfill_answersWf h
  | wtser d => exact execWtser_answersWf h d
  | wtemit slotbyte a => exact execWtemit_answersWf h slotbyte a
  | wtraw => exact execWtraw_answersWf h

end Commands

/-! ## The host's moves and the step -/

theorem issue_answersWf {s : State} (h : s.Wf) (w : Word) : AnswersWf (issue w s) := by
  unfold issue
  split
  · exact exec_answersWf h _
  · exact (h.raise .ill).answersWf

theorem makeMove_answersWf {s : State} (h : s.Wf) (m : HostMove) : AnswersWf (makeMove m s) := by
  cases m with
  | issue w => exact issue_answersWf h w
  | loadV i bytes => exact (h.hostLoadV i bytes).answersWf
  | loadP i ch res samples => exact (h.hostLoadP i ch res samples).answersWf
  | readV i => exact (h.answer _).answersWf
  | readP i => exact (h.answer _).answersWf
  | readWT => exact (h.answer _).answersWf
  | readCK => exact (h.answer _).answersWf
  | readStatus => exact (h.answer _).answersWf
  | reset => exact h.hostReset.answersWf

theorem step_answersWf {s : State} (h : s.Wf) : AnswersWf (step s) := by
  unfold step
  split
  · exact h.answersWf
  · exact makeMove_answersWf (h.setHost _) _

/-! ## The statements -/

theorem paramsDefault_legal : Params.default.Legal := by decide

/-- Settles O10: a step answers a next state with the invariants, and that state is the one the statement names. -/
theorem everyStepKeepsTheStorageInvariants : Obligations.EveryStepKeepsTheStorageInvariants := by
  unfold Obligations.EveryStepKeepsTheStorageInvariants
  intro s t h ht
  exact (step_answersWf h).wf_of_eq_next ht

/-- Settles O11: the reset state of any legal parameters has the invariants, and the defaults are legal. -/
theorem resetStateHasTheStorageInvariants : Obligations.ResetStateHasTheStorageInvariants := by
  unfold Obligations.ResetStateHasTheStorageInvariants
  exact ⟨State.resetWith_wf paramsDefault_legal, fun _ hc => State.resetWith_wf hc⟩

end Sys2Proof.Machine
end

section
/-! What a command writes (10_state.md rules R29, R31, R33, R50): every command performs a list of elementary writes,
all of them permitted to it, and the list does not depend on STATUS. The frame of a command, the stickiness of the flags,
their independence from the data and the growth of OUT are each a fact about one write, carried along the list. -/

namespace Sys2Proof.Machine

open Sys2Proof.Closed

/-! ## Elementary writes -/

/-- One write of a command to the state, with the value written already computed. A value buffer is written by the
store that cuts at `VCAP` with `OVF` (R102, R106, R195). -/
inductive Write where
  | flag (cond : Bool) (f : Flag)
  | clear (mask : Imm)
  | v (d : RegField) (y : List Byte)
  | p (d : RegField) (b : PcmBuffer)
  | wt (t : List Slot)
  | ck (x : BitVec 16)
  | out (x : List Byte)

/-- The shared operation of the model that makes the write. -/
def Write.apply : Write → State → State
  | .flag cond f, s => s.raiseIf cond f
  | .clear mask, s => s.clearFlags mask
  | .v d y, s => s.storeV d y
  | .p d b, s => s.writeP d b
  | .wt t, s => s.setWt t
  | .ck x, s => s.setCk x
  | .out x, s => s.emit x

/-- The writes R50 lists for a command. Any command may raise a flag; only `CLRST` clears some (R33). -/
def Write.Permitted (i : Instr) : Write → Prop
  | .flag _ _ => True
  | .clear mask => i = .clrst mask
  | .v d _ => vDest i = some d
  | .p d _ => pDest i = some d
  | .wt _ => writesWt i = true
  | .ck _ => writesCk i = true
  | .out _ => appendsOut i = true

/-- The writes of a list, first to last. -/
def perform : List Write → State → State
  | [], s => s
  | w :: ws, s => perform ws (w.apply s)

/-- Whatever STATUS is, the meaning performs on `s` one and the same list of writes, all permitted to `i`. -/
def Performs (i : Instr) (s : State) (meaning : State → Outcome) : Prop :=
  ∃ ws : List Write, ws.Forall (Write.Permitted i) ∧
    ∀ st, meaning { s with status := st } = .next (perform ws { s with status := st })

/-! ## The writes of each command -/

section Commands

variable (s : State)

theorem execNop_performs : Performs .nop s execNop :=
  ⟨[], trivial, fun _ => rfl⟩

theorem execClrst_performs (mask : Imm) : Performs (.clrst mask) s (execClrst mask) :=
  ⟨[.clear mask], rfl, fun _ => rfl⟩

theorem execPack_performs (d a : RegField) : Performs (.pack d a) s (execPack d a) :=
  ⟨[.v d (pack (s.readV a))], rfl, fun _ => rfl⟩

theorem execUnpack_performs (d a : RegField) : Performs (.unpack d a) s (execUnpack d a) :=
  ⟨[.v d (unpack (s.readV a))], rfl, fun _ => rfl⟩

theorem execVdump_performs (a : RegField) : Performs (.vdump a) s (execVdump a) :=
  ⟨[.out (s.readV a)], rfl, fun _ => rfl⟩

theorem execRequant_performs (d : RegField) (res : Imm) : Performs (.requant d res) s (execRequant d res) := by
  cases hres : Resolution.ofNat? res.toNat with
  | none => exact ⟨[.flag true .ires], trivial, fun _ => by simp only [execRequant, hres]; rfl⟩
  | some new =>
    exact ⟨[.p d (requantBuffer new (s.readP d))], rfl, fun _ => by simp only [execRequant, hres]; rfl⟩

theorem execResize_performs (d : RegField) (n : Imm) : Performs (.resize d n) s (execResize d n) := by
  let cap := sizeCap s.cfg (s.readP d)
  by_cases hshort : (s.readP d).spc < 2
  · exact ⟨[.flag (decide (cap < n.toNat)) .ovf], trivial, fun _ => if_pos hshort⟩
  · exact ⟨[.flag (decide (cap < n.toNat)) .ovf, .p d (resizeBuffer (min n.toNat cap) (s.readP d))],
      ⟨trivial, rfl⟩, fun _ => if_neg hshort⟩

theorem execChsel_performs (d a : RegField) (c : Imm) : Performs (.chsel d a c) s (execChsel d a c) :=
  let present := decide (c.toNat < (s.readP a).ch.count)
  ⟨[.flag (!present) .ich, .p d (channelBuffer (s.readP a) (if present then c.toNat else 0))],
    ⟨trivial, rfl⟩, fun _ => rfl⟩

theorem execTrim_performs (d a : RegField) (start size : Imm) :
    Performs (.trim d a start size) s (execTrim d a start size) := by
  by_cases hout : start.toNat + size.toNat > (s.readP a).spc
  · exact ⟨[.flag true .oor, .p d PcmBuffer.default], ⟨trivial, rfl⟩, fun _ => if_pos hout⟩
  · exact ⟨[.p d (trimBuffer (s.readP a) start.toNat size.toNat)], rfl, fun _ => if_neg hout⟩

theorem execPclone_performs (d a : RegField) : Performs (.pclone d a) s (execPclone d a) :=
  ⟨[.p d (s.readP a)], rfl, fun _ => rfl⟩

theorem execNorm_performs (d : RegField) (t : Imm) : Performs (.norm d t) s (execNorm d t) :=
  ⟨[.flag (decide (32768 < t.toNat)) .oor, .p d (normBuffer (min t.toNat 32768) (s.readP d))],
    ⟨trivial, rfl⟩, fun _ => rfl⟩

theorem execMorph_performs (d a b : RegField) (num den : Imm) :
    Performs (.morph d a b num den) s (execMorph d a b num den) := by
  by_cases hfrac : den.toNat = 0 ∨ num.toNat > den.toNat
  · exact ⟨[.flag true .oor], trivial, fun _ => if_pos hfrac⟩
  by_cases hlay : (s.readP a).spc ≠ (s.readP b).spc ∨ (s.readP a).ch ≠ (s.readP b).ch
  · exact ⟨[.flag true .lay], trivial, fun _ => (if_neg hfrac).trans (if_pos hlay)⟩
  · exact ⟨[.p d (morphBuffer (s.readP a) (s.readP b) num.toNat den.toNat)], rfl,
      fun _ => (if_neg hfrac).trans (if_neg hlay)⟩

theorem execWtclr_performs : Performs .wtclr s execWtclr :=
  ⟨[.wt emptyTable], rfl, fun _ => rfl⟩

theorem execWtins_performs (slot : Imm) (a : RegField) : Performs (.wtins slot a) s (execWtins slot a) := by
  by_cases hslot : slot.toNat > 15
  · exact ⟨[.flag true .oor], trivial, fun _ => if_pos hslot⟩
  by_cases hlay : (s.readP a).ch ≠ .mono ∨ (s.readP a).spc < 2
  · exact ⟨[.flag true .lay], trivial, fun _ => (if_neg hslot).trans (if_pos hlay)⟩
  · exact ⟨[.wt (putSlot s.wt slot.toNat (slotSamples (s.readP a)))], rfl,
      fun _ => (if_neg hslot).trans (if_neg hlay)⟩

theorem execWtfill_performs : Performs .wtfill s execWtfill := by
  by_cases hset : (slotAt s.wt 0).set = true
  · exact ⟨[.wt (fillTable s.wt)], rfl, fun _ => if_pos hset⟩
  · exact ⟨[.flag true .inc], trivial, fun _ => if_neg hset⟩

theorem execWtser_performs (d : RegField) : Performs (.wtser d) s (execWtser d) :=
  ⟨[.flag (anyUnset s.wt) .inc, .ck (checksum (tableSamples s.wt)), .v d (payload s.wt)],
    ⟨trivial, rfl, rfl⟩, fun _ => rfl⟩

theorem execWtemit_performs (slotbyte : Imm) (a : RegField) :
    Performs (.wtemit slotbyte a) s (execWtemit slotbyte a) :=
  let name := s.readV a
  let ck := checksum (tableSamples s.wt)
  ⟨[.ck ck, .flag (anyUnset s.wt) .inc, .flag (decide (127 < slotbyte.toNat) || nameMasked name) .oor,
      .out (frame (slotByte slotbyte) name (payload s.wt) ck)],
    ⟨rfl, trivial, trivial, rfl⟩, fun _ => rfl⟩

theorem execWtraw_performs : Performs .wtraw s execWtraw :=
  ⟨[.flag (anyUnset s.wt) .inc, .out (rawDump s.wt)], ⟨trivial, rfl⟩, fun _ => rfl⟩

/-- Every command only performs writes permitted to it, and which ones they are STATUS does not say (R33, R50). -/
theorem exec_performs (i : Instr) : Performs i s (exec i) := by
  cases i with
  | nop => exact execNop_performs s
  | clrst mask => exact execClrst_performs s mask
  | pack d a => exact execPack_performs s d a
  | unpack d a => exact execUnpack_performs s d a
  | vdump a => exact execVdump_performs s a
  | requant d res => exact execRequant_performs s d res
  | resize d n => exact execResize_performs s d n
  | chsel d a c => exact execChsel_performs s d a c
  | trim d a start size => exact execTrim_performs s d a start size
  | pclone d a => exact execPclone_performs s d a
  | norm d t => exact execNorm_performs s d t
  | morph d a b num den => exact execMorph_performs s d a b num den
  | wtclr => exact execWtclr_performs s
  | wtins slot a => exact execWtins_performs s slot a
  | wtfill => exact execWtfill_performs s
  | wtser d => exact execWtser_performs s d
  | wtemit slotbyte a => exact execWtemit_performs s slotbyte a
  | wtraw => exact execWtraw_performs s

end Commands

/-- A command that answers `t` has performed permitted writes, and would perform the same ones under any STATUS. -/
theorem writes_of_exec_eq_next {i : Instr} {s t : State} (h : exec i s = .next t) :
    ∃ ws : List Write, ws.Forall (Write.Permitted i) ∧ t = perform ws s ∧
      ∀ st, exec i { s with status := st } = .next (perform ws { s with status := st }) := by
  obtain ⟨ws, hperm, hexec⟩ := exec_performs s i
  exact ⟨ws, hperm, Host.Outcome.next.inj (h.symm.trans (hexec s.status)), hexec⟩

/-- A preorder on states that every permitted write respects relates the state before a command to the one after. -/
theorem rel_of_exec_eq_next {i : Instr} {r : State → State → Prop} (hrefl : ∀ s, r s s)
    (htrans : ∀ {s u t}, r s u → r u t → r s t) (hwrite : ∀ w : Write, w.Permitted i → ∀ s, r s (w.apply s))
    {s t : State} (h : exec i s = .next t) : r s t := by
  obtain ⟨ws, hperm, rfl, -⟩ := writes_of_exec_eq_next h
  clear h
  induction ws generalizing s with
  | nil => exact hrefl s
  | cons w ws ih =>
    obtain ⟨hw, hws⟩ := (List.forall_cons _ w ws).mp hperm
    exact htrans (hwrite w hw s) (ih hws)

/-! ## The frame of a command -/

/-- `t` agrees with `s` outside the destinations of `i`. -/
structure WritesOnlyDest (i : Instr) (s t : State) : Prop where
  v : ∀ k, (∀ d, vDest i = some d → k ≠ d.toNat) → t.v[k]? = s.v[k]?
  v_length : t.v.length = s.v.length
  p : ∀ k, (∀ d, pDest i = some d → k ≠ d.toNat) → t.p[k]? = s.p[k]?
  p_length : t.p.length = s.p.length
  wt : writesWt i = false → t.wt = s.wt
  ck : writesCk i = false → t.ck = s.ck
  out : appendsOut i = false → t.out = s.out
  cfg : t.cfg = s.cfg
  host : t.host = s.host
  replies : t.replies = s.replies

theorem WritesOnlyDest.refl (i : Instr) (s : State) : WritesOnlyDest i s s where
  v _ _ := rfl
  v_length := rfl
  p _ _ := rfl
  p_length := rfl
  wt _ := rfl
  ck _ := rfl
  out _ := rfl
  cfg := rfl
  host := rfl
  replies := rfl

theorem WritesOnlyDest.trans {i : Instr} {s u t : State} (h₁ : WritesOnlyDest i s u) (h₂ : WritesOnlyDest i u t) :
    WritesOnlyDest i s t where
  v k hk := (h₂.v k hk).trans (h₁.v k hk)
  v_length := h₂.v_length.trans h₁.v_length
  p k hk := (h₂.p k hk).trans (h₁.p k hk)
  p_length := h₂.p_length.trans h₁.p_length
  wt hi := (h₂.wt hi).trans (h₁.wt hi)
  ck hi := (h₂.ck hi).trans (h₁.ck hi)
  out hi := (h₂.out hi).trans (h₁.out hi)
  cfg := h₂.cfg.trans h₁.cfg
  host := h₂.host.trans h₁.host
  replies := h₂.replies.trans h₁.replies

/-- A permitted write stays in the frame: beside STATUS it touches one field, at a destination of the command. -/
theorem Write.Permitted.writesOnlyDest {i : Instr} (w : Write) (h : w.Permitted i) (s : State) :
    WritesOnlyDest i s (w.apply s) := by
  cases w with
  | flag cond f => exact { WritesOnlyDest.refl i s with }
  | clear mask => exact { WritesOnlyDest.refl i s with }
  | v d y =>
    exact { WritesOnlyDest.refl i s with
      v := fun k hk => List.getElem?_set_ne (hk d h).symm
      v_length := List.length_set }
  | p d b =>
    exact { WritesOnlyDest.refl i s with
      p := fun k hk => List.getElem?_set_ne (hk d h).symm
      p_length := List.length_set }
  | wt t => exact { WritesOnlyDest.refl i s with wt := fun hi => absurd h (Bool.eq_false_iff.mp hi) }
  | ck x => exact { WritesOnlyDest.refl i s with ck := fun hi => absurd h (Bool.eq_false_iff.mp hi) }
  | out x => exact { WritesOnlyDest.refl i s with out := fun hi => absurd h (Bool.eq_false_iff.mp hi) }

theorem exec_writesOnlyDest {i : Instr} {s t : State} (h : exec i s = .next t) : WritesOnlyDest i s t :=
  rel_of_exec_eq_next (WritesOnlyDest.refl i) WritesOnlyDest.trans Write.Permitted.writesOnlyDest h

/-- Settles O14: the fields of the frame are the clauses of the statement. -/
theorem commandsWriteOnlyTheirDestinations : Obligations.CommandsWriteOnlyTheirDestinations := by
  unfold Obligations.CommandsWriteOnlyTheirDestinations
  intro i s t h
  obtain ⟨hv, hvl, hp, hpl, hwt, hck, hout, hcfg, hhost, hreplies⟩ := exec_writesOnlyDest h
  exact ⟨hv, hvl, hp, hpl, hwt, hck, hout, hcfg, hhost, hreplies⟩

/-! ## STATUS (R33) -/

/-- Every flag of `s` is a flag of `t`. -/
def StatusLe (s t : State) : Prop := ∀ k, s.status.getLsbD k = true → t.status.getLsbD k = true

theorem State.raiseIf_statusLe (s : State) (cond : Bool) (f : Flag) : StatusLe s (s.raiseIf cond f) := by
  intro k hk
  rw [State.raiseIf_status, BitVec.getLsbD_or, hk, Bool.true_or]

/-- Of the writes only the clear takes a flag away, and only `CLRST` may make it. -/
theorem Write.Permitted.statusLe {i : Instr} (hi : ∀ m, i ≠ .clrst m) (w : Write) (h : w.Permitted i) (s : State) :
    StatusLe s (w.apply s) := by
  cases w with
  | flag cond f => exact s.raiseIf_statusLe cond f
  | clear mask => exact absurd h (hi mask)
  | v d y => exact s.raiseIf_statusLe (decide (s.cfg.vcap < y.length)) .ovf
  | p | wt | ck | out => exact fun _ hk => hk

/-- Settles O15: the flags before a command other than `CLRST` are flags after each of its writes. -/
theorem flagsAreSticky : Obligations.FlagsAreSticky := by
  unfold Obligations.FlagsAreSticky
  intro i s t h hi
  exact rel_of_exec_eq_next (r := StatusLe) (fun _ _ hk => hk) (fun h₁ h₂ k hk => h₂ k (h₁ k hk))
    (Write.Permitted.statusLe hi) h

/-- No write carries STATUS into another field. -/
theorem Write.apply_withStatus (w : Write) (s : State) (st : BitVec 32) :
    ∃ st', w.apply { s with status := st } = { w.apply s with status := st' } := by
  cases w <;> exact ⟨_, rfl⟩

theorem perform_withStatus (ws : List Write) (s : State) (st : BitVec 32) :
    ∃ st', perform ws { s with status := st } = { perform ws s with status := st' } := by
  induction ws generalizing s st with
  | nil => exact ⟨st, rfl⟩
  | cons w ws ih =>
    obtain ⟨st₁, h₁⟩ := w.apply_withStatus s st
    obtain ⟨st₂, h₂⟩ := ih (w.apply s) st₁
    exact ⟨st₂, (congrArg (perform ws) h₁).trans h₂⟩

/-- Settles O16: under another STATUS the command performs the same writes, and they differ in STATUS at most. -/
theorem flagsNeverChangeData : Obligations.FlagsNeverChangeData := by
  unfold Obligations.FlagsNeverChangeData
  intro i s t st h
  obtain ⟨ws, -, rfl, hexec⟩ := writes_of_exec_eq_next h
  obtain ⟨st', hst'⟩ := perform_withStatus ws s st
  exact ⟨st', (hexec st).trans (congrArg _ hst')⟩

/-! ## OUT through every step (R31, R58) -/

/-- OUT in `t` begins with all of OUT in `s`. -/
def OutExtends (s t : State) : Prop := s.out <+: t.out

theorem OutExtends.of_eq {s t : State} (h : t.out = s.out) : OutExtends s t :=
  ⟨[], (List.append_nil _).trans h.symm⟩

theorem Write.apply_outExtends (w : Write) (s : State) : OutExtends s (w.apply s) := by
  cases w with
  | out x => exact ⟨x, rfl⟩
  | flag | clear | v | p | wt | ck => exact OutExtends.of_eq rfl

theorem exec_outExtends {i : Instr} {s t : State} (h : exec i s = .next t) : OutExtends s t :=
  rel_of_exec_eq_next (fun _ => OutExtends.of_eq rfl) List.IsPrefix.trans (fun w _ => w.apply_outExtends) h

@[simp] theorem State.hostLoadV_out (s : State) (i : Nat) (bytes : List Nat) : (s.hostLoadV i bytes).out = s.out := by
  unfold State.hostLoadV
  split <;> rfl

@[simp] theorem State.hostLoadP_out (s : State) (i ch res : Nat) (samples : List Int) :
    (s.hostLoadP i ch res samples).out = s.out := by
  unfold State.hostLoadP
  split
  · split <;> rfl
  · rfl

/-- Of the host's moves only the issue of a decoded command can touch OUT; `Reset()` does not shorten it (R240). -/
theorem makeMove_outExtends {m : HostMove} {s t : State} (h : makeMove m s = .next t) : OutExtends s t := by
  cases m with
  | issue w =>
    simp only [makeMove, issue] at h
    split at h
    · exact exec_outExtends h
    · cases h; exact OutExtends.of_eq s.refuseIllegal_out
  | loadV i bytes => cases h; exact OutExtends.of_eq (s.hostLoadV_out i bytes)
  | loadP i ch res samples => cases h; exact OutExtends.of_eq (s.hostLoadP_out i ch res samples)
  | readV | readP | readWT | readCK | readStatus => cases h; exact OutExtends.of_eq (s.answer_out _)
  | reset => cases h; exact OutExtends.of_eq s.hostReset_out

theorem step_outExtends {s t : State} (h : step s = .next t) : OutExtends s t := by
  unfold step at h
  split at h
  · cases h; exact OutExtends.of_eq rfl
  next rest _ => exact makeMove_outExtends (s := s.setHost rest) h

/-- Settles O13: the bytes OUT gains are those after the common start. -/
theorem outOnlyGrows : Obligations.OutOnlyGrows := by
  unfold Obligations.OutOnlyGrows
  intro s t h
  obtain ⟨x, hx⟩ := step_outExtends h
  exact ⟨x, hx.symm⟩

/-! ## The reset state (R37) -/

/-- Settles O59: the fields of `State.resetWith` at the default parameters of R7, which are legal. -/
theorem resetStateHoldsTheResetValues : Obligations.ResetStateHoldsTheResetValues := by
  unfold Obligations.ResetStateHoldsTheResetValues
  exact ⟨State.resetWith_v _, State.resetWith_p _, State.resetWith_wt _, State.resetWith_ck _,
    State.resetWith_status _, State.resetWith_cfg _, paramsDefault_legal⟩

end Sys2Proof.Machine
end

section
/-! The host port (20_memory.md rules R55, R56, R57): what one step makes of each of the host's moves. -/

namespace Sys2Proof.Machine

/-! ## A step with a move to make -/

/-- The step makes the move at the head of `host`, on the state with that move used up (log 2). -/
theorem step_eq_makeMove {s : State} {m : HostMove} {rest : List HostMove} (h : s.host = m :: rest) :
    step s = makeMove m (s.setHost rest) := by
  simp only [step, h]

/-! ## Issue (R71) -/

theorem issue_eq_exec {s : State} {w : Word} {i : Instr} (h : decode s.cfg w = .ok i) : issue w s = exec i s := by
  simp only [issue, h]

theorem tableWord_eq_ofNat {n : Nat} (h : n < 2 ^ 64) : tableWord 64 n = BitVec.ofNat 64 n := by
  rw [tableWord, Nat.mod_eq_of_lt h]

/-- The word `withFetchWord` supplies is issued at the state before: using it up gives back the moves of `s`. -/
theorem step_withFetchWord (s : State) (nbits w : Nat) :
    step (s.withFetchWord nbits w) = issue (tableWord nbits w) s :=
  step_eq_makeMove (s := s.withFetchWord nbits w) rfl

/-- Settles O8: the step issues the word, and the issue runs what it decodes to. -/
theorem stepRunsTheDecodedCommand : Obligations.StepRunsTheDecodedCommand := by
  unfold Obligations.StepRunsTheDecodedCommand
  constructor
  · intro s w rest i hhost hdecode
    exact (step_eq_makeMove hhost).trans (issue_eq_exec (s := s.setHost rest) hdecode)
  · intro s n i hn hdecode
    rw [step_withFetchWord, tableWord_eq_ofNat hn]
    exact issue_eq_exec hdecode

/-! ## Reads (R55, R56) -/

theorem State.hostReadV_eq_bytes {s : State} {i : Nat} {x : List Byte} (h : s.v[i]? = some x) :
    s.hostReadV i = .bytes x := by
  simp only [State.hostReadV, h]

theorem State.hostReadP_eq_pcm {s : State} {i : Nat} {b : PcmBuffer} (h : s.p[i]? = some b) :
    s.hostReadP i = .pcm b := by
  simp only [State.hostReadP, h]

/-- A move that only answers `r` leaves the block as it is. -/
theorem step_eq_answer {s : State} {m : HostMove} {rest : List HostMove} {r : HostReply} (hhost : s.host = m :: rest)
    (hm : makeMove m (s.setHost rest) = .next ((s.setHost rest).answer r)) :
    step s = .next { s with host := rest, replies := s.replies ++ [r] } :=
  (step_eq_makeMove hhost).trans hm

/-- Settles O57: each read is a move that only answers, with what the state before it holds. -/
theorem hostReadsAnswerAndChangeNothing : Obligations.HostReadsAnswerAndChangeNothing := by
  unfold Obligations.HostReadsAnswerAndChangeNothing
  intro s rest
  refine ⟨fun i x hx hhost => ?readV, fun i b hb hhost => ?readP, fun hhost => step_eq_answer hhost rfl,
    fun hhost => step_eq_answer hhost rfl, fun hhost => step_eq_answer hhost rfl⟩
  case readV =>
    have hread : (s.setHost rest).hostReadV i = .bytes x := State.hostReadV_eq_bytes hx
    exact step_eq_answer hhost (by rw [makeMove, hread])
  case readP =>
    have hread : (s.setHost rest).hostReadP i = .pcm b := State.hostReadP_eq_pcm hb
    exact step_eq_answer hhost (by rw [makeMove, hread])

/-! ## Loads of a value buffer (R56, R57) -/

theorem loadVOk_iff (c : Params) (i : Nat) (x : List Nat) :
    loadVOk c i x = true ↔ i < c.nv ∧ x.length ≤ c.vcap ∧ ∀ b ∈ x, b ≤ 255 := by
  simp [loadVOk, and_assoc]

theorem State.hostLoadV_of_ok {s : State} {i : Nat} {x : List Nat} (h : loadVOk s.cfg i x = true) :
    s.hostLoadV i x = { s with v := s.v.set i (x.map (BitVec.ofNat 8)) } :=
  if_pos h

theorem State.hostLoadV_of_not_ok {s : State} {i : Nat} {x : List Nat} (h : ¬ loadVOk s.cfg i x = true) :
    s.hostLoadV i x = s :=
  if_neg h

theorem step_loadV {s t : State} {rest : List HostMove} {i : Nat} {x : List Nat} (hhost : s.host = .loadV i x :: rest)
    (ht : (s.setHost rest).hostLoadV i x = t) : step s = .next t := by
  rw [step_eq_makeMove hhost, makeMove, ht]

/-- The bytes stored are those loaded: none is above 255, so none is cut. -/
theorem map_toNat_map_ofNat {x : List Nat} (h : ∀ b ∈ x, b ≤ 255) :
    (x.map (BitVec.ofNat 8)).map BitVec.toNat = x := by
  have hbyte : ∀ b ∈ x, (BitVec.ofNat 8 b).toNat = b := fun b hb =>
    Nat.mod_eq_of_lt (Nat.lt_succ_of_le (h b hb))
  rw [List.map_map]
  exact (List.map_congr_left hbyte).trans x.map_id

/-! ## Loads of a PCM buffer (R56, R57) -/

theorem Channels.ofNat?_eq_some_iff (n : Nat) (ch : Channels) : Channels.ofNat? n = some ch ↔ ch.count = n := by
  constructor
  · unfold Channels.ofNat?
    split <;> rintro ⟨⟩ <;> rfl
  · rintro rfl
    exact ch.ofNat?_count

/-- The samples of a load that R57 lets through into a buffer of these channels. -/
def LoadableSamples (c : Params) (ch : Channels) (x : List Int) : Prop :=
  x.length ≤ c.pcap ∧ x.length % ch.count = 0 ∧ ∀ v ∈ x, -2 ^ 31 ≤ v ∧ v ≤ 2 ^ 31 - 1

/-- The buffer a load makes of its samples (R56). -/
def bufferOfSamples (ch : Channels) (res : Resolution) (x : List Int) : PcmBuffer :=
  { spc := x.length / ch.count, ch := ch, res := res, s := x.map wrap32 }

theorem loadedBuffer_eq_some_iff (c : Params) (n m : Nat) (x : List Int) (b : PcmBuffer) :
    loadedBuffer c n m x = some b ↔
      ∃ ch res, ch.count = n ∧ res.bits = m ∧ LoadableSamples c ch x ∧ bufferOfSamples ch res x = b := by
  simp only [← Channels.ofNat?_eq_some_iff, ← Resolution.ofNat?_eq_some_iff]
  cases hch : Channels.ofNat? n with
  | none => simp [loadedBuffer, hch]
  | some ch =>
    cases hres : Resolution.ofNat? m with
    | none => simp [loadedBuffer, hch, hres]
    | some res => simp [loadedBuffer, hch, hres, LoadableSamples, bufferOfSamples]

theorem State.hostLoadP_of_buffer {s : State} {i n m : Nat} {x : List Int} {b : PcmBuffer}
    (h : loadedBuffer s.cfg n m x = some b) (hi : i < s.cfg.np) :
    s.hostLoadP i n m x = { s with p := s.p.set i b } := by
  simp only [State.hostLoadP, h, if_pos hi]

theorem State.hostLoadP_eq_self {s : State} {i n m : Nat} {x : List Int}
    (h : ∀ b, loadedBuffer s.cfg n m x = some b → ¬ i < s.cfg.np) : s.hostLoadP i n m x = s := by
  unfold State.hostLoadP
  split
  next b hb => exact if_neg (h b hb)
  · rfl

theorem step_loadP {s t : State} {rest : List HostMove} {i n m : Nat} {x : List Int}
    (hhost : s.host = .loadP i n m x :: rest) (ht : (s.setHost rest).hostLoadP i n m x = t) : step s = .next t := by
  rw [step_eq_makeMove hhost, makeMove, ht]

/-- The samples stored are those loaded: each fits 32 signed bits, so none wraps. -/
theorem map_toInt_map_wrap32 {x : List Int} (h : ∀ v ∈ x, -2 ^ 31 ≤ v ∧ v ≤ 2 ^ 31 - 1) :
    (x.map wrap32).map BitVec.toInt = x := by
  have hsample : ∀ v ∈ x, (wrap32 v).toInt = v := fun v hv => by
    obtain ⟨hlo, hhi⟩ := h v hv
    exact BitVec.toInt_ofInt_eq_self (by decide) hlo (by omega)
  rw [List.map_map]
  exact (List.map_congr_left hsample).trans x.map_id

/-! ## The statements about loads -/

/-- Settles O55: the load goes through, and storing loses nothing of its elements. -/
theorem hostLoadsWriteTheBuffer : Obligations.HostLoadsWriteTheBuffer := by
  unfold Obligations.HostLoadsWriteTheBuffer
  constructor
  · intro s rest i x hhost hi hlen hbytes
    have hok : loadVOk s.cfg i x = true := (loadVOk_iff s.cfg i x).mpr ⟨hi, hlen, hbytes⟩
    exact ⟨_, map_toNat_map_ofNat hbytes, step_loadV hhost (State.hostLoadV_of_ok hok)⟩
  · intro s rest i ch res x hhost hi hlen hdvd hrange
    have hb : loadedBuffer s.cfg ch.count res.bits x = some (bufferOfSamples ch res x) :=
      (loadedBuffer_eq_some_iff ..).mpr ⟨ch, res, rfl, rfl, ⟨hlen, hdvd, hrange⟩, rfl⟩
    exact ⟨_, map_toInt_map_wrap32 hrange, step_loadP hhost (State.hostLoadP_of_buffer hb hi)⟩

/-- Settles O56: each reason denies one of the conditions under which a load is let through. -/
theorem refusedHostLoadsChangeNothing : Obligations.RefusedHostLoadsChangeNothing := by
  unfold Obligations.RefusedHostLoadsChangeNothing
  constructor
  · intro s rest i x hhost hbad
    have hrefused : ¬ loadVOk s.cfg i x = true := by
      rw [loadVOk_iff]
      rintro ⟨hi, hlen, hbytes⟩
      rcases hbad with hi' | hlen' | ⟨b, hb, hb'⟩
      · omega
      · omega
      · exact absurd (hbytes b hb) (by omega)
    exact step_loadV hhost (State.hostLoadV_of_not_ok hrefused)
  · intro s rest i n m x hhost hbad
    have hrefused : ∀ b, loadedBuffer s.cfg n m x = some b → ¬ i < s.cfg.np := by
      intro b hb hi
      obtain ⟨ch, res, rfl, rfl, ⟨hlen, hdvd, hrange⟩, -⟩ := (loadedBuffer_eq_some_iff ..).mp hb
      rcases hbad with hi' | hch | hres | hlen' | hdvd' | ⟨v, hv, hv'⟩
      · omega
      · cases ch <;> simp [Channels.count] at hch
      · cases res <;> simp [Resolution.bits] at hres
      · omega
      · exact hdvd' hdvd
      · have := hrange v hv
        omega
    exact step_loadP hhost (State.hostLoadP_eq_self hrefused)

end Sys2Proof.Machine
end

section
/-! The command word (30_encoding.md rules R72 to R80): the decoder accepts a word exactly when it is the encoder's word
of a well-formed command, so each reason to refuse a word is a property no command's word has. -/

namespace Sys2Proof

open Sys2Proof.Closed Sys2Proof.Machine

/-! ## Words and fields as numbers (R72) -/

theorem append_toNat_eq_add {n m : Nat} (x : BitVec n) (y : BitVec m) : (x ++ y).toNat = x.toNat * 2 ^ m + y.toNat := by
  rw [BitVec.toNat_append, ← Nat.shiftLeft_add_eq_or_of_lt y.isLt, Nat.shiftLeft_eq]

theorem assembleFields_toNat (op : BitVec 8) (rd ra rb : RegField) (immA immB : Imm) :
    (assembleFields op rd ra rb immA immB).toNat =
      wordValue op.toNat rd.toNat ra.toNat rb.toNat immA.toNat immB.toNat := by
  simp only [assembleFields, wordValue, append_toNat_eq_add]
  ring

theorem opField_toNat (w : Word) : (opField w).toNat = w.toNat / 2 ^ 56 := by
  have hw : w.toNat / 2 ^ 56 < 2 ^ 8 := by have := w.isLt; omega
  rw [opField, BitVec.extractLsb'_toNat, Nat.shiftRight_eq_div_pow, Nat.mod_eq_of_lt hw]

theorem rdField_toNat (w : Word) : (rdField w).toNat = w.toNat / 2 ^ 52 % 16 := by
  rw [rdField, BitVec.extractLsb'_toNat, Nat.shiftRight_eq_div_pow]

theorem raField_toNat (w : Word) : (raField w).toNat = w.toNat / 2 ^ 48 % 16 := by
  rw [raField, BitVec.extractLsb'_toNat, Nat.shiftRight_eq_div_pow]

theorem rbField_toNat (w : Word) : (rbField w).toNat = w.toNat / 2 ^ 44 % 16 := by
  rw [rbField, BitVec.extractLsb'_toNat, Nat.shiftRight_eq_div_pow]

theorem matchWord_eq_ofNat (op : BitVec 8) : matchWord op = BitVec.ofNat 64 (op.toNat * 2 ^ 56) := by
  apply BitVec.eq_of_toNat_eq
  have hop := op.isLt
  rw [matchWord, assembleFields_toNat, BitVec.toNat_ofNat, Nat.mod_eq_of_lt (by omega)]
  simp [wordValue]

/-- Two words are equal exactly when their fields are. -/
theorem assembleFields_inj {op op' : BitVec 8} {rd rd' ra ra' rb rb' : RegField} {immA immA' immB immB' : Imm} :
    assembleFields op rd ra rb immA immB = assembleFields op' rd' ra' rb' immA' immB' ↔
      op = op' ∧ rd = rd' ∧ ra = ra' ∧ rb = rb' ∧ immA = immA' ∧ immB = immB' := by
  constructor
  · intro h
    exact ⟨by simpa using congrArg opField h, by simpa using congrArg rdField h, by simpa using congrArg raField h,
      by simpa using congrArg rbField h, by simpa using congrArg immAField h, by simpa using congrArg immBField h⟩
  · rintro ⟨rfl, rfl, rfl, rfl, rfl, rfl⟩
    rfl

/-! ## The mask of a format (R73, R77) -/

/-- The format uses `rd` (R73). -/
def Format.usesRd : Format → Bool
  | .fd | .fds | .fdi | .fdsi | .fdsii | .fdssii => true
  | .f0 | .fi | .fs | .fsi => false

/-- The format uses `ra` (R73). -/
def Format.usesRa : Format → Bool
  | .fs | .fds | .fsi | .fdsi | .fdsii | .fdssii => true
  | .f0 | .fi | .fd | .fdi => false

/-- The format uses `rb` (R73). -/
def Format.usesRb : Format → Bool
  | .fdssii => true
  | _ => false

/-- The format uses `immA` (R73). -/
def Format.usesImmA : Format → Bool
  | .fdsii | .fdssii => true
  | _ => false

/-- The format uses `immB` (R73). -/
def Format.usesImmB : Format → Bool
  | .fi | .fdi | .fsi | .fdsi | .fdsii | .fdssii => true
  | .f0 | .fd | .fs | .fds => false

/-- The mask of R73 is all ones in the opcode and in every field the format does not use, and 0 in the others. -/
theorem Format.mask_eq_assembleFields (f : Format) :
    f.mask = assembleFields 0xFF#8 (bif f.usesRd then 0 else 0xF#4) (bif f.usesRa then 0 else 0xF#4)
      (bif f.usesRb then 0 else 0xF#4) (bif f.usesImmA then 0 else 0x3FFFFF#22)
      (bif f.usesImmB then 0 else 0x3FFFFF#22) := by
  cases f <;> rfl

/-- The word with 0 in every field the format does not use. -/
def Format.clearUnused (f : Format) (w : Word) : Word :=
  assembleFields (opField w) (bif f.usesRd then rdField w else 0) (bif f.usesRa then raField w else 0)
    (bif f.usesRb then rbField w else 0) (bif f.usesImmA then immAField w else 0)
    (bif f.usesImmB then immBField w else 0)

/-- In one field the mask test asks that the field be 0 unless it is used. -/
theorem field_and_mask_eq_zero_iff {n : Nat} (used : Bool) (x : BitVec n) :
    x &&& (bif used then 0 else BitVec.allOnes n) = 0 ↔ (bif used then x else 0) = x := by
  cases used
  · simpa using eq_comm
  · simp

/-- The mask test of R77 says that the word has 0 in every unused field. -/
theorem and_mask_eq_matchWord_iff (f : Format) (w : Word) :
    w &&& f.mask = matchWord (opField w) ↔ f.clearUnused w = w := by
  have hop : opField w &&& 0xFF#8 = opField w := BitVec.and_allOnes
  conv_lhs => rw [← assembleFields_fields w]
  conv_rhs => rhs; rw [← assembleFields_fields w]
  rw [f.mask_eq_assembleFields, assembleFields_and, matchWord, Format.clearUnused, assembleFields_inj,
    assembleFields_inj, opField_assembleFields, hop]
  exact and_congr_right' (and_congr (field_and_mask_eq_zero_iff ..) (and_congr (field_and_mask_eq_zero_iff ..)
    (and_congr (field_and_mask_eq_zero_iff ..) (and_congr (field_and_mask_eq_zero_iff ..)
      (field_and_mask_eq_zero_iff ..)))))

/-! ## The opcode map and the encoder (R76) -/

/-- The command the map reads from a word is encoded as that word, up to the fields its format does not use. -/
theorem encode_of_shape {w : Word} {f : Format} {i : Instr} (h : shape w = some (f, i)) :
    encode i = f.clearUnused w := by
  have hop (n : Nat) (hn : (opField w).toNat = n) : BitVec.ofNat 8 n = opField w := by simp [← hn]
  unfold shape at h
  split at h
  case h_19 => cases h
  all_goals
    cases h
    next hn => simp only [Format.clearUnused, ← hop _ hn]; rfl

/-- From the word of a command the map reads that command. -/
theorem shape_encode (i : Instr) : ∃ f, shape (encode i) = some (f, i) := by
  have h : Laws.ShapeOfEncode.Statement i := by
    cases i with
    | nop => exact Laws.ShapeOfEncode.nop
    | clrst mask => exact Laws.ShapeOfEncode.clrst mask
    | pack d a => exact Laws.ShapeOfEncode.pack d a
    | unpack d a => exact Laws.ShapeOfEncode.unpack d a
    | vdump a => exact Laws.ShapeOfEncode.vdump a
    | requant d res => exact Laws.ShapeOfEncode.requant d res
    | resize d n => exact Laws.ShapeOfEncode.resize d n
    | chsel d a c => exact Laws.ShapeOfEncode.chsel d a c
    | trim d a start size => exact Laws.ShapeOfEncode.trim d a start size
    | pclone d a => exact Laws.ShapeOfEncode.pclone d a
    | norm d t => exact Laws.ShapeOfEncode.norm d t
    | morph d a b num den => exact Laws.ShapeOfEncode.morph d a b num den
    | wtclr => exact Laws.ShapeOfEncode.wtclr
    | wtins slot a => exact Laws.ShapeOfEncode.wtins slot a
    | wtfill => exact Laws.ShapeOfEncode.wtfill
    | wtser d => exact Laws.ShapeOfEncode.wtser d
    | wtemit slotbyte a => exact Laws.ShapeOfEncode.wtemit slotbyte a
    | wtraw => exact Laws.ShapeOfEncode.wtraw
  obtain ⟨⟨f, _⟩, hf, rfl⟩ := Option.map_eq_some_iff.mp h
  exact ⟨f, hf⟩

/-! ## Decoding -/

theorem decode_eq_ok_iff (c : Params) (w : Word) (i : Instr) :
    decode c w = .ok i ↔ ∃ f, shape w = some (f, i) ∧ f.clearUnused w = w ∧ wellFormed c i = true := by
  unfold decode
  cases hs : shape w with
  | none => simp
  | some row =>
    obtain ⟨f, j⟩ := row
    simp only [and_mask_eq_matchWord_iff]
    split_ifs with hmask hwf
    · constructor
      · rintro ⟨⟩; exact ⟨f, rfl, hmask, hwf⟩
      · rintro ⟨_, ⟨⟩, -, -⟩; rfl
    · constructor
      · rintro ⟨⟩
      · rintro ⟨_, ⟨⟩, -, hwf'⟩; exact absurd hwf' hwf
    · constructor
      · rintro ⟨⟩
      · rintro ⟨_, ⟨⟩, hmask', -⟩; exact absurd hmask' hmask

theorem decode_encode {c : Params} {i : Instr} (hwf : wellFormed c i = true) : decode c (encode i) = .ok i := by
  obtain ⟨f, hf⟩ := shape_encode i
  exact (decode_eq_ok_iff c (encode i) i).mpr ⟨f, hf, (encode_of_shape hf).symm, hwf⟩

theorem encode_of_decode {c : Params} {w : Word} {i : Instr} (h : decode c w = .ok i) :
    encode i = w ∧ wellFormed c i = true := by
  obtain ⟨f, hf, hw, hwf⟩ := (decode_eq_ok_iff c w i).mp h
  exact ⟨(encode_of_shape hf).trans hw, hwf⟩

theorem decode_eq_ok_of_encode {c : Params} {w : Word} {i : Instr} (hw : encode i = w) (hwf : wellFormed c i = true) :
    decode c w = .ok i :=
  hw ▸ decode_encode hwf

/-- Settles O2: the map reads the command back, and its word has 0 in every unused field. -/
theorem decodeOfEncodeIsTheCommand : Obligations.DecodeOfEncodeIsTheCommand := by
  unfold Obligations.DecodeOfEncodeIsTheCommand
  exact fun _ _ hwf => decode_encode hwf

/-- Settles O3: a decoded word has 0 in every unused field, so it is the encoder's word. -/
theorem encodeOfDecodeIsTheWord : Obligations.EncodeOfDecodeIsTheWord := by
  unfold Obligations.EncodeOfDecodeIsTheWord
  exact fun _ _ _ h => encode_of_decode h

/-- Settles O4: each word is the encoder's word of the command beside it. -/
theorem writtenOutWordsDecode : Obligations.WrittenOutWordsDecode := by
  unfold Obligations.WrittenOutWordsDecode
  refine ⟨decode_eq_ok_of_encode ?nop rfl, decode_eq_ok_of_encode ?clrst rfl, decode_eq_ok_of_encode ?pack rfl,
    decode_eq_ok_of_encode ?trim rfl, decode_eq_ok_of_encode ?morph rfl, decode_eq_ok_of_encode ?wtins rfl,
    decode_eq_ok_of_encode ?wtemit rfl⟩ <;> rfl

/-- Settles O1: the encoder assembles the word of every command from its fields. -/
theorem commandWordsFollowTheOpcodeMap : Obligations.CommandWordsFollowTheOpcodeMap := by
  unfold Obligations.CommandWordsFollowTheOpcodeMap
  intro d a b x y
  refine ⟨?nop, ?clrst, ?pack, ?unpack, ?vdump, ?requant, ?resize, ?chsel, ?trim, ?pclone, ?norm, ?morph, ?wtclr,
    ?wtins, ?wtfill, ?wtser, ?wtemit, ?wtraw⟩
  all_goals exact assembleFields_toNat ..

/-! ## Illegal words (R77 to R80) -/

theorem decode_eq_error_of_ne_ok {c : Params} {w : Word} (h : ∀ i, decode c w ≠ .ok i) :
    ∃ e, decode c w = .error e := by
  cases hd : decode c w with
  | error e => exact ⟨e, rfl⟩
  | ok i => exact absurd hd (h i)

namespace Machine

/-- The step that issues a word no command decodes from uses up the move and sets `ILL` (R80). -/
theorem step_of_illegal {s : State} {w : Word} {rest : List HostMove} (hhost : s.host = .issue w :: rest)
    (h : ∀ i, decode s.cfg w ≠ .ok i) : step s = .next { s with host := rest, status := s.status ||| 0x40#32 } := by
  obtain ⟨e, he⟩ := decode_eq_error_of_ne_ok h
  have he' : decode (s.setHost rest).cfg w = .error e := he
  rw [step_eq_makeMove hhost, makeMove, issue, he']
  rfl

end Machine

/-! ### Reserved opcodes and unused bits (R77, R79) -/

/-- R76's table: the format of an opcode, `none` for a reserved one. -/
def formatOfOpcode : Nat → Option Format
  | 0x00 | 0x30 | 0x32 | 0x35 => some .f0
  | 0x01 => some .fi
  | 0x33 => some .fd
  | 0x12 => some .fs
  | 0x10 | 0x11 | 0x24 => some .fds
  | 0x20 | 0x21 | 0x25 => some .fdi
  | 0x31 | 0x34 => some .fsi
  | 0x22 => some .fdsi
  | 0x23 => some .fdsii
  | 0x26 => some .fdssii
  | _ => none

/-- The opcode alone fixes the format the map gives. -/
theorem formatOfOpcode_of_shape {w : Word} {f : Format} {i : Instr} (h : shape w = some (f, i)) :
    formatOfOpcode (opField w).toNat = some f := by
  unfold shape at h
  split at h
  case h_19 => cases h
  all_goals
    cases h
    next hn => rw [hn]; rfl

theorem formatOfOpcode_of_decode {c : Params} {w : Word} {i : Instr} (h : decode c w = .ok i) :
    ∃ f, formatOfOpcode (w.toNat / 2 ^ 56) = some f ∧ w &&& f.mask = BitVec.ofNat 64 (w.toNat / 2 ^ 56 * 2 ^ 56) := by
  obtain ⟨f, hf, hw, -⟩ := (decode_eq_ok_iff c w i).mp h
  refine ⟨f, opField_toNat w ▸ formatOfOpcode_of_shape hf, ?_⟩
  rw [(and_mask_eq_matchWord_iff f w).mpr hw, matchWord_eq_ofNat, opField_toNat]

theorem formatOfOpcode_eq_none {op : Nat}
    (h : (0x02 ≤ op ∧ op ≤ 0x0F) ∨ (0x13 ≤ op ∧ op ≤ 0x1F) ∨ (0x27 ≤ op ∧ op ≤ 0x2F) ∨ 0x36 ≤ op) :
    formatOfOpcode op = none := by
  unfold formatOfOpcode
  split
  case h_19 => rfl
  all_goals omega

/-- Settles O5: a word that decodes has an opcode with a format. -/
theorem reservedOpcodeSetsIllOnly : Obligations.ReservedOpcodeSetsIllOnly := by
  unfold Obligations.ReservedOpcodeSetsIllOnly
  intro s w rest hhost hop
  refine Machine.step_of_illegal hhost fun i hi => ?_
  obtain ⟨f, hf, -⟩ := formatOfOpcode_of_decode hi
  exact absurd (hf.symm.trans (formatOfOpcode_eq_none hop)) (Option.some_ne_none f)

/-- Settles O6: each row pairs an opcode with the mask of its format, and a word that decodes passes that mask. -/
theorem unusedBitSetsIllOnly : Obligations.UnusedBitSetsIllOnly := by
  unfold Obligations.UnusedBitSetsIllOnly
  intro s w rest hhost row hrow hop hbits
  have hmask : (formatOfOpcode row.1).map Format.mask = some row.2 := by
    clear hop hbits
    revert row
    decide
  refine Machine.step_of_illegal hhost fun i hi => hbits ?_
  obtain ⟨f, hf, hw⟩ := formatOfOpcode_of_decode hi
  rw [hop] at hf hw
  rw [hf, Option.map_some, Option.some_inj] at hmask
  rw [← hmask, hw]

/-! ### Register numbers out of range (R78) -/

/-- The value buffers a command names. -/
def Instr.vRegs : Instr → List RegField
  | .pack d a | .unpack d a => [d, a]
  | .vdump a | .wtemit _ a => [a]
  | .wtser d => [d]
  | _ => []

/-- The PCM buffers a command names. -/
def Instr.pRegs : Instr → List RegField
  | .requant d _ | .resize d _ | .norm d _ => [d]
  | .chsel d a _ | .trim d a _ _ | .pclone d a => [d, a]
  | .morph d a b _ _ => [d, a, b]
  | .wtins _ a => [a]
  | _ => []

theorem wellFormed_iff (c : Params) (i : Instr) :
    wellFormed c i = true ↔ (∀ r ∈ i.vRegs, r.toNat < c.nv) ∧ ∀ r ∈ i.pRegs, r.toNat < c.np := by
  cases i <;> simp [wellFormed, vRegOk, pRegOk, Instr.vRegs, Instr.pRegs, and_assoc]

section Registers

variable (i : Instr)

theorem rdField_encode_mem_vRegs (h : (opField (encode i)).toNat ∈ [0x10, 0x11, 0x33]) :
    rdField (encode i) ∈ i.vRegs := by
  cases i <;> simp_all [encode, Instr.vRegs]

theorem raField_encode_mem_vRegs (h : (opField (encode i)).toNat ∈ [0x10, 0x11, 0x12, 0x34]) :
    raField (encode i) ∈ i.vRegs := by
  cases i <;> simp_all [encode, Instr.vRegs]

theorem rdField_encode_mem_pRegs (h : (opField (encode i)).toNat ∈ [0x20, 0x21, 0x22, 0x23, 0x24, 0x25, 0x26]) :
    rdField (encode i) ∈ i.pRegs := by
  cases i <;> simp_all [encode, Instr.pRegs]

theorem raField_encode_mem_pRegs (h : (opField (encode i)).toNat ∈ [0x22, 0x23, 0x24, 0x26, 0x31]) :
    raField (encode i) ∈ i.pRegs := by
  cases i <;> simp_all [encode, Instr.pRegs]

theorem rbField_encode_mem_pRegs (h : (opField (encode i)).toNat = 0x26) : rbField (encode i) ∈ i.pRegs := by
  cases i <;> simp_all [encode, Instr.pRegs]

end Registers

/-- Settles O7: a word that decodes is the word of a well-formed command, and the fields the statement lists for an
opcode are buffers its command names. -/
theorem registerOutOfRangeSetsIllOnly : Obligations.RegisterOutOfRangeSetsIllOnly := by
  unfold Obligations.RegisterOutOfRangeSetsIllOnly
  intro s w rest hhost hbad
  refine Machine.step_of_illegal hhost fun i hi => ?_
  obtain ⟨rfl, hwf⟩ := encode_of_decode hi
  obtain ⟨hv, hp⟩ := (wellFormed_iff _ _).mp hwf
  simp only [← opField_toNat, ← rdField_toNat, ← raField_toNat, ← rbField_toNat] at hbad
  rcases hbad with ⟨hop, hr⟩ | ⟨hop, hr⟩ | ⟨hop, hr⟩ | ⟨hop, hr⟩ | ⟨hop, hr⟩
  · exact absurd (hv _ (rdField_encode_mem_vRegs i hop)) (not_lt.mpr hr)
  · exact absurd (hv _ (raField_encode_mem_vRegs i hop)) (not_lt.mpr hr)
  · exact absurd (hp _ (rdField_encode_mem_pRegs i hop)) (not_lt.mpr hr)
  · exact absurd (hp _ (raField_encode_mem_pRegs i hop)) (not_lt.mpr hr)
  · exact absurd (hp _ (rbField_encode_mem_pRegs i hop)) (not_lt.mpr hr)

end Sys2Proof
end

section
/-! What the emitters append to OUT (30_encoding.md rules R86 to R89; 45_wavetable.md rules R196 to R199): the bytes of a
buffer, the samples of the table, and the SysEx frame by its layout. -/

namespace Sys2Proof.Machine

open Sys2Proof.Closed

/-! ## The value buffers of a command CORE can be given (R78) -/

theorem State.Wf.v_getElem? {s : State} (h : s.Wf) {r : RegField} (hr : vRegOk s.cfg r = true) :
    s.v[r.toNat]? = some (s.readV r) := by
  have hlt : r.toNat < s.v.length := h.v_length ▸ of_decide_eq_true hr
  simp [State.readV, hlt]

/-- A store within `VCAP` is read back whole. -/
theorem State.readV_storeV_same {s : State} {r : RegField} {y : List Byte} (hr : r.toNat < s.v.length)
    (hy : y.length ≤ s.cfg.vcap) : (s.storeV r y).readV r = y := by
  have hr' : r.toNat < (s.raiseIf (decide (s.cfg.vcap < y.length)) .ovf).v.length := hr
  rw [State.storeV, State.readV_writeV_same _ _ _ hr', List.take_of_length_le hy]

/-- Settles O22: the file holds the buffer a well-formed command names. -/
theorem vdumpAppendsTheBuffer : Obligations.VdumpAppendsTheBuffer := by
  unfold Obligations.VdumpAppendsTheBuffer
  rintro a s ⟨hwf, ha⟩
  exact ⟨assembleFields_toNat .., s.readV a, hwf.v_getElem? ha, rfl⟩

/-! ## `INC` at emission (R196) -/

theorem anyUnset_eq_true_iff_not_all {t : List Slot} (h : t.length = 16) :
    anyUnset t = true ↔ ¬ ∀ k ∈ t, k.set = true := by
  rw [anyUnset_eq_true_iff, List.forall_mem_iff_getElem]
  push Not
  constructor
  · rintro ⟨k, hk, hset⟩
    exact ⟨k, h ▸ hk, by simpa [slotAt, h ▸ hk] using hset⟩
  · rintro ⟨k, hk, hset⟩
    exact ⟨k, h ▸ hk, by simpa [slotAt, hk] using hset⟩

theorem incBits_eq {t : List Slot} (h : t.length = 16) :
    (if anyUnset t then Flag.inc.mask else 0) = if ∀ k ∈ t, k.set = true then 0#32 else 0x20#32 := by
  by_cases hall : ∀ k ∈ t, k.set = true
  · rw [if_pos hall, if_neg (fun hany => (anyUnset_eq_true_iff_not_all h).mp hany hall)]; rfl
  · rw [if_neg hall, if_pos ((anyUnset_eq_true_iff_not_all h).mpr hall)]; rfl

/-! ## Samples in a byte stream (R192) -/

theorem sampleAt_flatMap_sampleBytes {x : List Sample16} {m : Nat} (h : m < x.length) :
    SampleAt (x.flatMap sampleBytes) (2 * m) (x.getD m 0) := by
  obtain ⟨hhigh, hlow⟩ := flatMap_sampleBytes_getD x m h
  have hlen := flatMap_sampleBytes_length x
  refine ⟨?_, ?_⟩
  · rw [List.getElem?_eq_getElem (by omega), ← List.getD_eq_getElem _ 0, hhigh, highByte]
  · rw [List.getElem?_eq_getElem (by omega), ← List.getD_eq_getElem _ 0, hlow, lowByte]

/-! ## The raw dump (R88) -/

/-- The samples of slots 0 to 15, one slot after the other. -/
def slotSequence (t : List Slot) : List Sample16 := (List.range 16).flatMap fun k => (slotAt t k).samples

theorem rawDump_eq (t : List Slot) : rawDump t = (slotSequence t).flatMap sampleBytes :=
  List.flatMap_assoc.symm

section SlotSequence

variable {t : List Slot} (h : ∀ k ∈ t, k.samples.length = 1024)

include h

theorem slotSequence_length : (slotSequence t).length = 16384 := by
  have hlen : (List.range 16).map (fun k => (slotAt t k).samples.length) = (List.range 16).map fun _ => 1024 :=
    List.map_congr_left fun k _ => slotAt_samples_length h k
  rw [slotSequence, List.length_flatMap, hlen]
  rfl

theorem slotSequence_getD {k i : Nat} (hk : k < 16) (hi : i < 1024) :
    (slotSequence t).getD (1024 * k + i) 0 = (slotAt t k).samples.getD i 0 := by
  rw [Nat.mul_comm]
  exact getD_flatMap_blocks 16 1024 _ (fun k _ => slotAt_samples_length h k) k i hk hi 0

theorem rawDump_length : (rawDump t).length = 32768 := by
  rw [rawDump_eq, flatMap_sampleBytes_length, slotSequence_length h]

theorem sampleAt_rawDump {k i : Nat} (hk : k < 16) (hi : i < 1024) :
    SampleAt (rawDump t) (2048 * k + 2 * i) ((slotAt t k).samples.getD i 0) := by
  have hplace : 2048 * k + 2 * i = 2 * (1024 * k + i) := by ring
  rw [rawDump_eq, hplace, ← slotSequence_getD h hk hi]
  exact sampleAt_flatMap_sampleBytes (by rw [slotSequence_length h]; omega)

end SlotSequence

/-- Settles O54: the dump holds every sample at its place, and `INC` is the only flag. -/
theorem wtrawAppendsEverySample : Obligations.WtrawAppendsEverySample := by
  unfold Obligations.WtrawAppendsEverySample
  intro s h
  refine ⟨assembleFields_toNat .., rawDump s.wt, ?_, rawDump_length h.slot_length,
    fun k hk i hi => sampleAt_rawDump h.slot_length hk hi⟩
  rw [← incBits_eq h.wt_length]
  rfl

/-! ## Seven-bit bytes (R87) -/

theorem and_7F_eq_ofNat (b : Byte) : b &&& 0x7F#8 = BitVec.ofNat 8 (b.toNat % 128) := by
  apply BitVec.eq_of_toNat_eq
  have hmod := Nat.and_two_pow_sub_one_eq_mod b.toNat 7
  have hlt : b.toNat % 128 < 2 ^ 8 := by omega
  rw [BitVec.toNat_and, BitVec.toNat_ofNat (b.toNat % 128), Nat.mod_eq_of_lt hlt]
  exact hmod

theorem ofNat_mod_128_le (n : Nat) : (BitVec.ofNat 8 (n % 128)).toNat ≤ 0x7F := by
  rw [BitVec.toNat_ofNat]
  omega

theorem and_7F_le (b : Byte) : (b &&& 0x7F#8).toNat ≤ 0x7F :=
  and_7F_eq_ofNat b ▸ ofNat_mod_128_le b.toNat

/-- Seven bits of a word as a byte are a remainder by 128. -/
theorem sevenBits_eq_ofNat {n : Nat} (x : BitVec n) (start : Nat) :
    (x.extractLsb' start 7).setWidth 8 = BitVec.ofNat 8 (x.toNat / 2 ^ start % 128) := by
  apply BitVec.eq_of_toNat_eq
  rw [BitVec.toNat_setWidth, BitVec.extractLsb'_toNat, Nat.shiftRight_eq_div_pow, BitVec.toNat_ofNat]

theorem slotByte_eq (n : Imm) : slotByte n = BitVec.ofNat 8 (n.toNat % 128) := by
  rw [slotByte, sevenBits_eq_ofNat, pow_zero, Nat.div_one]

theorem checksumLow_eq (ck : BitVec 16) : checksumLow ck = BitVec.ofNat 8 (ck.toNat % 128) := by
  rw [checksumLow, sevenBits_eq_ofNat, pow_zero, Nat.div_one]

theorem checksumHigh_eq (ck : BitVec 16) : checksumHigh ck = BitVec.ofNat 8 (ck.toNat / 256 % 128) :=
  sevenBits_eq_ofNat ck 8

theorem nameByte_eq (name : List Byte) (k : Nat) :
    nameByte name k = if k < name.length then BitVec.ofNat 8 ((name.getD k 0).toNat % 128) else 0x20#8 := by
  unfold nameByte
  by_cases hk : k < name.length
  · rw [if_pos hk, List.getElem?_eq_getElem hk, ← List.getD_eq_getElem _ 0 hk]
    exact and_7F_eq_ofNat _
  · rw [if_neg hk, List.getElem?_eq_none (not_lt.mp hk)]

theorem nameByte_le (name : List Byte) (k : Nat) : (nameByte name k).toNat ≤ 0x7F := by
  rw [nameByte_eq]
  split
  · exact ofNat_mod_128_le _
  · decide

/-- A run has at most 7 values, so the pack byte has no bit 7 (R100). -/
theorem packByte_le {run : List Byte} (h : run.length ≤ 7) : (packByte run).toNat ≤ 0x7F := by
  have hbit : (packByte run).msb = false := by
    rw [BitVec.msb_eq_getLsbD_last, packByte_getLsbD run 7 (by decide), List.getD_eq_default _ _ h]
    rfl
  have := BitVec.msb_eq_false_iff_two_mul_lt.mp hbit
  omega

theorem packRun_le {run : List Byte} (h : run.length ≤ 7) : ∀ b ∈ packRun run, b.toNat ≤ 0x7F := by
  intro b hb
  rcases List.mem_cons.mp hb with rfl | hb
  · exact packByte_le h
  · obtain ⟨x, -, rfl⟩ := List.mem_map.mp hb
    exact and_7F_le x

theorem pack_le (x : List Byte) : ∀ b ∈ pack x, b.toNat ≤ 0x7F := by
  induction x using induction_on_runs (k := 7) (by decide) with
  | nil => simp
  | short x h0 h => exact pack_short h0 h ▸ packRun_le h.le
  | full x h ih =>
    rw [pack_full h]
    intro b hb
    rcases List.mem_append.mp hb with hb | hb
    · exact packRun_le (List.length_take_le 7 x) b hb
    · exact ih b hb

/-! ## The layout of the frame (R86) -/

/-- The frame before its payload: header, slot byte, name, `00`. -/
def frameHead (sb : Byte) (name : List Byte) : List Byte := frameHeader ++ sb :: (nameField name ++ [0x00])

/-- The frame after its payload. -/
def frameTail (ck : BitVec 16) : List Byte := [checksumLow ck, checksumHigh ck, 0xF7]

section Frame

variable (sb : Byte) (name u : List Byte) (ck : BitVec 16)

theorem frame_eq : frame sb name u ck = frameHead sb name ++ (pack u ++ frameTail ck) := by
  simp [frame, frameHead, frameTail]

theorem frameHead_length : (frameHead sb name).length = 17 := rfl

theorem frame_take_header : (frame sb name u ck).take 7 = frameHeader := rfl

theorem frame_slotByte : (frame sb name u ck)[7]? = some sb := rfl

theorem frame_nameByte {k : Nat} (hk : k < 8) : (frame sb name u ck)[8 + k]? = some (nameByte name k) := by
  have hfield : (nameField name)[k]? = some (nameByte name k) := by simp [nameField, hk]
  have hhead : (frameHead sb name)[8 + k]? = (nameField name ++ [0x00])[k]? := by
    rw [Nat.add_comm]
    rfl
  rw [frame_eq, List.getElem?_append_left (by rw [frameHead_length]; omega), hhead,
    List.getElem?_append_left (by rwa [nameField_length]), hfield]

theorem frame_zero : (frame sb name u ck)[16]? = some 0x00#8 := rfl

theorem frame_payload : ((frame sb name u ck).drop 17).take (pack u).length = pack u := by
  rw [frame_eq, ← frameHead_length sb name, List.drop_left, List.take_left]

theorem frame_tail (k : Nat) : (frame sb name u ck)[17 + (pack u).length + k]? = (frameTail ck)[k]? := by
  rw [frame_eq, ← frameHead_length sb name, Nat.add_assoc, List.getElem?_append_right (by omega),
    List.getElem?_append_right (by omega)]
  congr 1
  omega

/-- The bytes of the frame between its `F0` and its `F7`. -/
def frameMiddle : List Byte := (frameHead sb name).tail ++ (pack u ++ [checksumLow ck, checksumHigh ck])

theorem frame_eq_markers : frame sb name u ck = [0xF0#8] ++ frameMiddle sb name u ck ++ [0xF7#8] := by
  simp [frame_eq, frameMiddle, frameHead, frameHeader, frameTail]

theorem frameHead_tail_le {sb : Byte} (hsb : sb.toNat ≤ 0x7F) : ∀ b ∈ (frameHead sb name).tail, b.toNat ≤ 0x7F := by
  have hname : ∀ b ∈ nameField name, b.toNat ≤ 0x7F := by
    intro b hb
    obtain ⟨k, -, rfl⟩ := List.mem_map.mp hb
    exact nameByte_le name k
  simpa [frameHead, frameHeader, or_imp, forall_and, hsb] using hname

theorem frameMiddle_le {sb : Byte} (hsb : sb.toNat ≤ 0x7F) : ∀ b ∈ frameMiddle sb name u ck, b.toNat ≤ 0x7F := by
  intro b hb
  rcases List.mem_append.mp hb with hb | hb
  · exact frameHead_tail_le name hsb b hb
  rcases List.mem_append.mp hb with hb | hb
  · exact pack_le u b hb
  · rw [checksumLow_eq, checksumHigh_eq, List.mem_pair] at hb
    rcases hb with rfl | rfl <;> exact ofNat_mod_128_le _

end Frame

/-! ## `WTEMIT` (R197, R198) -/

/-- The checksum of the table (R193). -/
def tableChecksum (t : List Slot) : BitVec 16 := checksum (tableSamples t)

/-- The frame `WTEMIT` appends. -/
def emittedFrame (n : Imm) (a : RegField) (s : State) : List Byte :=
  frame (slotByte n) (s.readV a) (payload s.wt) (tableChecksum s.wt)

theorem emittedFrame_length (n : Imm) (a : RegField) (s : State) : (emittedFrame n a s).length = 112368 :=
  frame_length ..

theorem emittedFrame_tail (n : Imm) (a : RegField) (s : State) (k : Nat) :
    (emittedFrame n a s)[112365 + k]? = (frameTail (tableChecksum s.wt))[k]? := by
  have h := frame_tail (slotByte n) (s.readV a) (payload s.wt) (tableChecksum s.wt) k
  rwa [pack_payload_length] at h

theorem emittedFrame_eq_markers (n : Imm) (a : RegField) (s : State) :
    ∃ mid, emittedFrame n a s = [0xF0#8] ++ mid ++ [0xF7#8] ∧ ∀ b ∈ mid, b.toNat ≤ 0x7F := by
  have hsb : (slotByte n).toNat ≤ 0x7F := slotByte_eq n ▸ ofNat_mod_128_le _
  exact ⟨_, frame_eq_markers .., frameMiddle_le _ _ _ hsb⟩

/-- `OOR` is raised exactly when the slot byte or a byte of the name field loses its bit 7. -/
theorem oorBits_eq (n : Imm) (name : List Byte) :
    (if decide (127 < n.toNat) || nameMasked name then Flag.oor.mask else 0) =
      if n.toNat ≤ 127 ∧ ∀ b ∈ name.take 8, b.toNat ≤ 0x7F then 0#32 else 0x08#32 := by
  have hcond : (decide (127 < n.toNat) || nameMasked name) = true ↔
      ¬ (n.toNat ≤ 127 ∧ ∀ b ∈ name.take 8, b.toNat ≤ 0x7F) := by
    rw [Bool.or_eq_true, nameMasked, List.any_eq_true, not_and_or, not_le]
    push Not
    simp only [decide_eq_true_eq]
  by_cases h : n.toNat ≤ 127 ∧ ∀ b ∈ name.take 8, b.toNat ≤ 0x7F
  · rw [if_pos h, if_neg (fun hany => hcond.mp hany h)]; rfl
  · rw [if_neg h, if_pos (hcond.mpr h)]; rfl

theorem exec_wtemit_eq_emit (n : Imm) (a : RegField) (s : State) :
    exec (.wtemit n a) s = .next ((((s.setCk (tableChecksum s.wt)).raiseIf (anyUnset s.wt) .inc).raiseIf
      (decide (127 < n.toNat) || nameMasked (s.readV a)) .oor).emit (emittedFrame n a s)) := by
  simp only [exec, execWtemit, tableChecksum, emittedFrame]

/-- The fields the writes of `WTEMIT` leave, whatever it writes. -/
theorem emit_raiseIf_raiseIf_setCk (s : State) (x : BitVec 16) (inc oor : Bool) (y : List Byte) :
    (((s.setCk x).raiseIf inc .inc).raiseIf oor .oor).emit y = { s with
      ck := x
      out := s.out ++ y
      status := s.status ||| (if inc then Flag.inc.mask else 0) ||| (if oor then Flag.oor.mask else 0) } := rfl

theorem exec_wtemit {s : State} (h : s.wt.length = 16) (n : Imm) (a : RegField) :
    exec (.wtemit n a) s = .next { s with
      ck := tableChecksum s.wt
      out := s.out ++ emittedFrame n a s
      status := s.status ||| (if ∀ k ∈ s.wt, k.set = true then 0#32 else 0x20#32) |||
        (if n.toNat ≤ 127 ∧ ∀ b ∈ (s.readV a).take 8, b.toNat ≤ 0x7F then 0#32 else 0x08#32) } := by
  rw [← incBits_eq h, ← oorBits_eq, exec_wtemit_eq_emit, emit_raiseIf_raiseIf_setCk]

theorem exec_wtser (d : RegField) (s : State) :
    exec (.wtser d) s = .next (((s.raiseIf (anyUnset s.wt) .inc).setCk (tableChecksum s.wt)).storeV d
      (payload s.wt)) := by
  simp only [exec, execWtser, tableChecksum]

theorem exec_pack (d a : RegField) (s : State) : exec (.pack d a) s = .next (s.storeV d (pack (s.readV a))) := rfl

theorem eq_of_exec_wtser {s t : State} {d : RegField} (ht : exec (.wtser d) s = .next t) :
    t = ((s.raiseIf (anyUnset s.wt) .inc).setCk (tableChecksum s.wt)).storeV d (payload s.wt) :=
  (Host.Outcome.next.inj ((exec_wtser d s).symm.trans ht)).symm

theorem eq_of_exec_pack {s t : State} {d a : RegField} (ht : exec (.pack d a) s = .next t) :
    t = s.storeV d (pack (s.readV a)) :=
  (Host.Outcome.next.inj ((exec_pack d a s).symm.trans ht)).symm

theorem ck_of_exec_wtser {s t : State} {d : RegField} (ht : exec (.wtser d) s = .next t) :
    t.ck = tableChecksum s.wt := by
  rw [eq_of_exec_wtser ht, State.storeV_ck, State.setCk_ck]

/-- `WTSER` stores the payload whole: it is within the least `VCAP` (R7, R195). -/
theorem readV_of_exec_wtser {s t : State} {d : RegField} (h : s.Wf) (hd : d.toNat < s.cfg.nv)
    (ht : exec (.wtser d) s = .next t) : t.readV d = payload s.wt := by
  have hvcap : 112348 ≤ s.cfg.vcap := h.legal.1.1
  rw [eq_of_exec_wtser ht]
  refine State.readV_storeV_same ?reg ?fits
  case reg => rwa [State.setCk_v, State.raiseIf_v, h.v_length]
  case fits =>
    rw [State.setCk_cfg, State.raiseIf_cfg, payload_length]
    omega

/-- `PACK` after it, in place, stores the packed payload whole: `VCAP` is at least its length (R7). -/
theorem readV_of_exec_pack_wtser {s t u : State} {d : RegField} (h : s.Wf) (hd : d.toNat < s.cfg.nv)
    (ht : exec (.wtser d) s = .next t) (hu : exec (.pack d d) t = .next u) : u.readV d = pack (payload s.wt) := by
  have hvcap : 112348 ≤ s.cfg.vcap := h.legal.1.1
  have hframe := exec_writesOnlyDest ht
  rw [eq_of_exec_pack hu, readV_of_exec_wtser h hd ht]
  refine State.readV_storeV_same ?reg ?fits
  case reg => rwa [hframe.v_length, h.v_length]
  case fits => rwa [hframe.cfg, pack_payload_length]

/-- Settles O53: the frame is its markers around bytes that are all masked or packed. -/
theorem frameIsSevenBitBetweenItsMarkers : Obligations.FrameIsSevenBitBetweenItsMarkers := by
  unfold Obligations.FrameIsSevenBitBetweenItsMarkers
  rintro n a s ⟨h, -⟩
  obtain ⟨mid, hframe, hmid⟩ := emittedFrame_eq_markers n a s
  refine ⟨_, mid, exec_wtemit h.wt_length n a, ?out, ?length, hmid⟩
  case out => simp only [hframe, List.append_assoc]
  case length =>
    have hlen := emittedFrame_length n a s
    rw [hframe] at hlen
    simpa using hlen

/-- Settles O52: the frame field by field, its payload the one `WTSER` and `PACK` leave. -/
theorem wtemitAppendsTheFrame : Obligations.WtemitAppendsTheFrame := by
  unfold Obligations.WtemitAppendsTheFrame
  rintro n a s ⟨h, -⟩
  refine ⟨assembleFields_toNat .., emittedFrame n a s, tableChecksum s.wt, exec_wtemit h.wt_length n a,
    emittedFrame_length n a s, frame_take_header .., ?slotByte, ?name, frame_zero .., ?payload, ?checksumLow,
    ?checksumHigh, emittedFrame_tail n a s 2⟩
  case slotByte => exact slotByte_eq n ▸ frame_slotByte ..
  case name => exact fun k hk => nameByte_eq (s.readV a) k ▸ frame_nameByte _ _ _ _ hk
  case payload =>
    intro d t u hd ht hu
    refine ⟨?_, ck_of_exec_wtser ht⟩
    rw [readV_of_exec_pack_wtser h hd ht hu, ← pack_payload_length s.wt]
    exact frame_payload ..
  case checksumLow => exact checksumLow_eq (tableChecksum s.wt) ▸ emittedFrame_tail n a s 0
  case checksumHigh => exact checksumHigh_eq (tableChecksum s.wt) ▸ emittedFrame_tail n a s 1

end Sys2Proof.Machine
end

section
/-! The packing codec (40_packing_codec.md): `PACK` stores the runs of seven with their pack bytes, `UNPACK` gives each
data byte its high bit back, and `UNPACK` undoes `PACK`. -/

namespace Sys2Proof.Machine

/-! ## The store of a value buffer (R101, R102, R105, R106) -/

theorem State.storeV_eq (s : State) (r : RegField) (y : List Byte) :
    s.storeV r y = { s with
      v := s.v.set r.toNat (y.take s.cfg.vcap)
      status := s.status ||| (if s.cfg.vcap < y.length then 0x01#32 else 0#32) } := by
  have hmask : (if decide (s.cfg.vcap < y.length) then Flag.ovf.mask else 0) =
      if s.cfg.vcap < y.length then 0x01#32 else 0#32 := if_congr decide_eq_true_iff rfl rfl
  rw [← hmask]
  rfl

/-- A sequence within `VCAP` is stored whole, and no flag is raised. -/
theorem State.storeV_eq_of_fits {s : State} {y : List Byte} (hy : y.length ≤ s.cfg.vcap) (r : RegField) :
    s.storeV r y = { s with v := s.v.set r.toNat y } := by
  rw [State.storeV_eq, List.take_of_length_le hy, if_neg (not_lt.mpr hy), BitVec.or_zero]

/-! ## `PACK` (R100 to R102) -/

/-- Value `k` of the run of at most `n` values from place `i` on: 0 beyond the run. -/
theorem getD_take_drop (x : List Byte) (i n k : Nat) :
    ((x.drop i).take n).getD k 0 = if k < n then x.getD (i + k) 0 else 0 := by
  rw [List.getD_eq_getElem?_getD, List.getElem?_take]
  split
  · rw [List.getElem?_drop, List.getD_eq_getElem?_getD]
  · rfl

/-- Bit `k` of pack byte `g` is bit 7 of value `7g + k`, and its bit 7 is 0 (R100). -/
theorem packByte_run_getLsbD (x : List Byte) (g : Nat) {k : Nat} (hk : k < 8) :
    (packByte ((x.drop (7 * g)).take 7)).getLsbD k = (decide (k < 7) && (x.getD (7 * g + k) 0).getLsbD 7) := by
  rw [packByte_getLsbD _ _ hk, getD_take_drop]
  by_cases h7 : k < 7
  · rw [if_pos h7, decide_eq_true h7, Bool.true_and]
  · rw [if_neg h7, decide_eq_false h7, Bool.false_and]
    rfl

/-- Settles O19: the store of `pack`, whose packets are known by place. -/
theorem packStoresTheRunsOfSeven : Obligations.PackStoresTheRunsOfSeven := by
  unfold Obligations.PackStoresTheRunsOfSeven
  intro d a s _
  refine ⟨assembleFields_toNat .., pack (s.readV a), ?exec, pack_length _, ?packBytes, ?dataBytes, pack_le _⟩
  case exec => rw [exec_pack, State.storeV_eq]
  case packBytes => exact fun g hg => ⟨_, (pack_getElem? _ g hg).1, fun _ hk => packByte_run_getLsbD _ g hk⟩
  case dataBytes => exact fun g k hk hx => (pack_getElem? _ g (by omega)).2 k hk hx

/-! ## `UNPACK` (R104 to R106) -/

theorem exec_unpack (d a : RegField) (s : State) :
    exec (.unpack d a) s = .next (s.storeV d (unpack (s.readV a))) := rfl

/-- `Unpack` never lengthens its source, and a source is within `VCAP` (R106). -/
theorem unpack_readV_length_le {s : State} (h : s.Wf) (a : RegField) : (unpack (s.readV a)).length ≤ s.cfg.vcap :=
  (unpack_length_le _).trans (State.readV_length_le h a)

/-- Settles O20: the store of `unpack`, which fits. -/
theorem unpackTakesTheHighBitsOfThePackBytes : Obligations.UnpackTakesTheHighBitsOfThePackBytes := by
  unfold Obligations.UnpackTakesTheHighBitsOfThePackBytes
  rintro d a s ⟨h, -⟩
  have hfits := unpack_readV_length_le h a
  refine ⟨assembleFields_toNat .., unpack (s.readV a), ?exec, unpack_length _, hfits, ?bytes⟩
  case exec => rw [exec_unpack, State.storeV_eq_of_fits hfits]
  case bytes => exact fun i hi h0 => unpack_getElem? _ i hi h0

/-! ## The round trip (R107) -/

theorem and_7F_or_bit7 : ∀ b : Byte, (b &&& 0x7F#8 &&& 0x7F#8) ||| (if b.getLsbD 7 then 0x80#8 else 0) = b := by
  decide

/-- A byte is its low 7 bits with its own bit 7 put back. -/
theorem unpackByte_and_7F {pb b : Byte} {k : Nat} (h : pb.getLsbD k = b.getLsbD 7) :
    unpackByte pb k (b &&& 0x7F#8) = b := by
  rw [unpackByte, h]
  exact and_7F_or_bit7 b

/-- A packet gives its run back: bit `k` of the pack byte is the bit 7 that value `k` lost. -/
theorem unpackRun_packRun {run : List Byte} (h : run.length ≤ 7) : unpackRun (packRun run) = run := by
  have hlen : (unpackRun (packRun run)).length = run.length := by
    rw [unpackRun_length, packRun_length, Nat.add_sub_cancel]
  refine List.ext_getElem hlen fun k _ hk => ?_
  have hbit : (packByte run).getLsbD k = run[k].getLsbD 7 := by
    rw [packByte_getLsbD run k (by omega), List.getD_eq_getElem _ _ hk]
  have hget : (unpackRun (packRun run))[k]? = some (unpackByte (packByte run) k (run[k] &&& 0x7F#8)) := by
    rw [unpackRun_getElem? _ k (by rw [packRun_length]; omega)]
    simp [packRun, hk]
  rw [unpackByte_and_7F hbit] at hget
  exact (List.getElem?_eq_some_iff.mp hget).2

/-- A packet of 8 bytes is unpacked by itself: positions begin anew behind it (R104). -/
theorem unpack_append_of_length_eq {y : List Byte} (hy : y.length = 8) (z : List Byte) :
    unpack (y ++ z) = unpackRun y ++ unpack z := by
  rw [unpack_full (by rw [List.length_append]; omega), ← hy, List.take_left, List.drop_left]

/-- `Unpack(Pack(x)) = x` (R107). -/
theorem unpack_pack (x : List Byte) : unpack (pack x) = x := by
  induction x using induction_on_runs (k := 7) (by decide) with
  | nil => rfl
  | short x h0 h =>
    have hlen : (packRun x).length < 8 := by rw [packRun_length]; omega
    have hne : packRun x ≠ [] := List.cons_ne_nil _ _
    rw [pack_short h0 h, unpack_short hne hlen, unpackRun_packRun h.le]
  | full x h ih =>
    have hlen : (packRun (x.take 7)).length = 8 := by rw [packRun_length, List.length_take_of_le h]
    rw [pack_full h, unpack_append_of_length_eq hlen, unpackRun_packRun (List.length_take_le 7 x), ih,
      List.take_append_drop]

/-- Settles O21: `PACK` stores the packed form whole, so `UNPACK` reads it back and recovers a source that fits. -/
theorem unpackUndoesPack : Obligations.UnpackUndoesPack := by
  unfold Obligations.UnpackUndoesPack
  rintro d a e s ⟨h, hwf⟩ - hfits
  have hd : d.toNat < s.v.length := h.v_length ▸ ((wellFormed_iff _ _).mp hwf).1 d (List.mem_cons_self ..)
  have hread : (s.storeV d (pack (s.readV a))).readV d = pack (s.readV a) :=
    State.readV_storeV_same hd (by rwa [pack_length])
  have hsource : (s.readV a).length ≤ (s.storeV d (pack (s.readV a))).cfg.vcap := State.readV_length_le h a
  refine ⟨_, exec_pack d a s, ?_⟩
  rw [exec_unpack, hread, unpack_pack, State.storeV_eq_of_fits hsource]

end Sys2Proof.Machine
end

section
/-! The requantizer (41_requantizer.md): `REQUANT` works on the signed value a stored sample stands for, so its closed
form, its ranges and its round trips are facts about integers that fit a number of bits. -/

namespace Sys2Proof.Machine

open Sys2Proof.Closed

/-! ## The command (R120, R121) -/

theorem exec_requant {res : Imm} {new : Resolution} (hnew : new.bits = res.toNat) (d : RegField) (s : State) :
    exec (.requant d res) s = .next (s.writeP d (requantBuffer new (s.readP d))) := by
  have hres := (Resolution.ofNat?_eq_some_iff res.toNat new).mpr hnew
  simp only [exec, execRequant, hres]

/-- No resolution has this number of bits: the flag alone is written. -/
theorem exec_requant_refused {res : Imm} (hres : Resolution.ofNat? res.toNat = none) (d : RegField) (s : State) :
    exec (.requant d res) s = .next (s.raise .ires) := by
  simp only [exec, execRequant, hres]

/-- Settles O24: the immediate names no resolution. -/
theorem requantIgnoresOtherResolutions : Obligations.RequantIgnoresOtherResolutions := by
  unfold Obligations.RequantIgnoresOtherResolutions
  intro d res s _ h8 h16 h24 h32
  have hres := (Resolution.ofNat?_eq_none_iff res.toNat).mpr ⟨h8, h16, h24, h32⟩
  exact exec_requant_refused hres d s

theorem exists_resolution_of_bits {n : Nat} (h : n = 8 ∨ n = 16 ∨ n = 24 ∨ n = 32) : ∃ r : Resolution, r.bits = n := by
  rcases h with rfl | rfl | rfl | rfl
  exacts [⟨.r8, rfl⟩, ⟨.r16, rfl⟩, ⟨.r24, rfl⟩, ⟨.r32, rfl⟩]

theorem lt_p_length_of_ready {s : State} {i : Instr} {r : RegField} (h : Ready s i) (hr : r ∈ i.pRegs) :
    r.toNat < s.p.length := by
  obtain ⟨hwf, hi⟩ := h
  rw [hwf.p_length]
  exact ((wellFormed_iff _ _).mp hi).2 r hr

/-! ## Signed values and stored samples (R26, R127) -/

/-- The value a stored sample stands for: an 8-bit sample carries a bias of 128 (R127). -/
def signedValue (r : Resolution) (x : Sample) : Int := if r = .r8 then x.toInt - 128 else x.toInt

/-- The sample that stores a value: steps 3 and 4 of R122. -/
def storedSample (r : Resolution) (t : Int) : Sample := wrap32 (if r = .r8 then (t + 128) % 256 else t)

/-- The value is one of `n` bits, two's complement. -/
def FitsSigned (n : Nat) (v : Int) : Prop := -(2 ^ (n - 1)) ≤ v ∧ v < 2 ^ (n - 1)

theorem requantSample_eq_storedSample (old new : Resolution) (x : Sample) :
    requantSample old new x = storedSample new (convertBits (signedValue old x) old.bits new.bits) := rfl

theorem Resolution.bits_pos (r : Resolution) : 0 < r.bits := by cases r <;> decide

theorem Resolution.bits_eq_eight_iff (r : Resolution) : r.bits = 8 ↔ r = .r8 := by cases r <;> decide

/-- A canonical sample is one whose signed value fits its resolution (R26). -/
theorem canonical_iff_fitsSigned (r : Resolution) (x : Sample) :
    canonical r x = true ↔ FitsSigned r.bits (signedValue r x) := by
  simp only [canonical, Bool.and_eq_true, decide_eq_true_eq, FitsSigned, signedValue]
  cases r <;> simp only [Resolution.lowest, Resolution.highest, Resolution.bits, reduceCtorEq, if_true, if_false] <;>
    omega

/-- A value that fits is stored as it is, with the bias put back: neither the mask nor `wrap32` bites. -/
theorem storedSample_of_fits {r : Resolution} {t : Int} (h : FitsSigned r.bits t) :
    storedSample r t = wrap32 (if r = .r8 then t + 128 else t) := by
  obtain ⟨hlo, hhi⟩ := h
  by_cases hr : r = .r8
  · subst hr
    simp only [Resolution.bits] at hlo hhi
    rw [storedSample, if_pos rfl, if_pos rfl, Int.emod_eq_of_lt (by omega) (by omega)]
  · rw [storedSample, if_neg hr, if_neg hr]

theorem toInt_wrap32 {v : Int} (hlo : -2 ^ 31 ≤ v) (hhi : v < 2 ^ 31) : (wrap32 v).toInt = v :=
  BitVec.toInt_ofInt_eq_self (by decide) hlo hhi

theorem toInt_storedSample {r : Resolution} {t : Int} (h : FitsSigned r.bits t) :
    (storedSample r t).toInt = if r = .r8 then t + 128 else t := by
  rw [storedSample_of_fits h]
  obtain ⟨hlo, hhi⟩ := h
  cases r <;> simp only [Resolution.bits, reduceCtorEq, if_true, if_false] at hlo hhi ⊢ <;>
    exact toInt_wrap32 (by omega) (by omega)

theorem signedValue_storedSample {r : Resolution} {t : Int} (h : FitsSigned r.bits t) :
    signedValue r (storedSample r t) = t := by
  rw [signedValue, toInt_storedSample h]
  split <;> omega

/-- The sample of a value `k` away from the one `x` stands for is `x + k`. -/
theorem storedSample_eq_add {r : Resolution} {t k : Int} {x : Sample} (h : FitsSigned r.bits t)
    (ht : t = signedValue r x + k) : storedSample r t = x + BitVec.ofInt 32 k := by
  have hvalue : (if r = .r8 then t + 128 else t) = x.toInt + k := by
    rw [ht, signedValue]
    split <;> omega
  rw [storedSample_of_fits h, hvalue, wrap32, BitVec.ofInt_add, BitVec.ofInt_toInt]

/-- After the mask an 8-bit sample is 0 to 255, whatever the value was (R127). -/
theorem storedSample_r8_toNat_le (t : Int) : (storedSample .r8 t).toNat ≤ 255 := by
  rw [storedSample, if_pos rfl, wrap32, BitVec.toNat_ofInt]
  omega

/-! ## Lowering in closed form (R124) -/

theorem emod_two_pow_succ (v : Int) (j : Nat) : v % 2 ^ (j + 1) = 2 ^ j * (v / 2 ^ j % 2) + v % 2 ^ j := by
  have hdiv : v / (2 ^ j * 2) = v / 2 ^ j / 2 := (Int.ediv_ediv_of_nonneg (by positivity)).symm
  rw [pow_succ, Int.emod_def, hdiv, Int.emod_def (v / 2 ^ j) 2, Int.emod_def v (2 ^ j)]
  ring

/-- The round bit is 1 exactly when the discarded part is half a step or more. -/
theorem intBit_eq_true_iff (v : Int) (j : Nat) : intBit v j = true ↔ 2 ^ (j + 1) ≤ 2 * (v % 2 ^ (j + 1)) := by
  have hsplit := emod_two_pow_succ v j
  have hpow : (2 : Int) ^ (j + 1) = 2 * 2 ^ j := pow_succ' 2 j
  have hnonneg := Int.emod_nonneg v (show (2 : Int) ^ j ≠ 0 by positivity)
  have hlt := Int.emod_lt_of_pos v (show (0 : Int) < 2 ^ j by positivity)
  rw [intBit, decide_eq_true_iff]
  rcases Int.emod_two_eq (v / 2 ^ j) with hbit | hbit <;> rw [hbit] at hsplit ⊢ <;> omega

theorem clamp_eq_max_min {v lo hi : Int} (h : lo ≤ hi) : clamp v lo hi = max lo (min hi v) := by
  unfold clamp
  split <;> [omega; split <;> omega]

/-- R124's table, before the clamp. -/
def loweredValue (v : Int) (k : Nat) : Int :=
  if 0 ≤ v then (if 2 ^ k ≤ 2 * (v % 2 ^ k) then v / 2 ^ k + 1 else v / 2 ^ k)
  else (if 2 ^ k ≤ 2 * (v % 2 ^ k) then v / 2 ^ k else v / 2 ^ k - 1)

theorem lowerBy_eq_loweredValue (v : Int) {k : Nat} (hk : 0 < k) (n : Nat) :
    lowerBy v k n = max (-(2 ^ (n - 1))) (min (2 ^ (n - 1) - 1) (loweredValue v k)) := by
  have hbit : intBit v (k - 1) = decide (2 ^ k ≤ 2 * (v % 2 ^ k)) := by
    rw [Bool.eq_iff_iff, intBit_eq_true_iff, decide_eq_true_iff, Nat.sub_add_cancel hk]
  have hpos : (0 : Int) < 2 ^ (n - 1) := by positivity
  rw [lowerBy, clamp_eq_max_min (by omega), hbit, loweredValue, shiftDown]
  congr 2
  by_cases hv : 0 ≤ v <;> by_cases hround : 2 ^ k ≤ 2 * (v % 2 ^ k) <;> simp [hv, hround, ← not_le]

theorem convertBits_of_lt {old new : Nat} (h : new < old) (v : Int) :
    convertBits v old new = lowerBy v (old - new) new := if_pos h

/-- Raising by no bits leaves the value (R126). -/
theorem convertBits_of_le {old new : Nat} (h : old ≤ new) (v : Int) :
    convertBits v old new = v * 2 ^ (new - old) := by
  rw [convertBits, if_neg (not_lt.mpr h)]
  split
  case isTrue => rfl
  case isFalse hup => rw [Nat.sub_eq_zero_of_le (not_lt.mp hup), pow_zero, mul_one]

/-- `Q` is the closed form of R122 and R124, for every stored sample. -/
theorem requantSample_eq_requantValue (old new : Resolution) (x : Sample) :
    requantSample old new x = BitVec.ofInt 32 (requantValue old.bits new.bits x.toInt) := by
  have hconvert (v : Int) : convertBits v old.bits new.bits =
      if new.bits < old.bits then
        max (-(2 ^ (new.bits - 1))) (min (2 ^ (new.bits - 1) - 1) (loweredValue v (old.bits - new.bits)))
      else v * 2 ^ (new.bits - old.bits) := by
    split
    case isTrue hlow => rw [convertBits_of_lt hlow, lowerBy_eq_loweredValue v (Nat.sub_pos_of_lt hlow)]
    case isFalse hlow => exact convertBits_of_le (not_lt.mp hlow) v
  simp only [requantSample_eq_storedSample, hconvert, storedSample, signedValue, wrap32, requantValue, loweredValue,
    Resolution.bits_eq_eight_iff, ge_iff_le]

/-- Settles O23: the buffer `REQUANT` writes, with `Q` in closed form. -/
theorem requantConvertsEverySample : Obligations.RequantConvertsEverySample := by
  unfold Obligations.RequantConvertsEverySample
  intro d res s _ hres
  obtain ⟨new, hnew⟩ := exists_resolution_of_bits hres
  refine ⟨assembleFields_toNat .., new, hnew, ?_⟩
  rw [exec_requant hnew, ← hnew, requantBuffer, funext (requantSample_eq_requantValue (s.readP d).res new)]
  rfl

/-! ## Ranges (R124, R125, R127) -/

/-- The clamp ends the lowering within the new range, whatever the value was. -/
theorem fitsSigned_lowerBy (v : Int) (k n : Nat) : FitsSigned n (lowerBy v k n) := by
  have hpos : (0 : Int) < 2 ^ (n - 1) := by positivity
  rw [lowerBy, clamp_eq_max_min (by omega), FitsSigned]
  omega

/-- Raising is exact: the range grows by the same factor as the value (R125). -/
theorem FitsSigned.mul_two_pow {n m : Nat} {v : Int} (h : FitsSigned n v) (hn : 0 < n) (hnm : n ≤ m) :
    FitsSigned m (v * 2 ^ (m - n)) := by
  obtain ⟨hlo, hhi⟩ := h
  have hpos : (0 : Int) < 2 ^ (m - n) := by positivity
  have hpow : (2 : Int) ^ (m - 1) = 2 ^ (n - 1) * 2 ^ (m - n) := by
    rw [← pow_add]
    congr 1
    omega
  rw [FitsSigned, hpow, ← neg_mul]
  exact ⟨mul_le_mul_of_nonneg_right hlo hpos.le, mul_lt_mul_of_pos_right hhi hpos⟩

theorem FitsSigned.convertBits {old new : Nat} {v : Int} (h : FitsSigned old v) (hold : 0 < old) :
    FitsSigned new (convertBits v old new) := by
  rcases lt_or_ge new old with hlow | hup
  · exact convertBits_of_lt hlow v ▸ fitsSigned_lowerBy v _ new
  · exact convertBits_of_le hup v ▸ h.mul_two_pow hold hup

section Canonical

variable {old : Resolution} {x : Sample} (hx : canonical old x = true) (new : Resolution)
include hx

theorem fitsSigned_convertBits_signedValue :
    FitsSigned new.bits (convertBits (signedValue old x) old.bits new.bits) :=
  ((canonical_iff_fitsSigned old x).mp hx).convertBits old.bits_pos

/-- The new sample stands for the converted value: nothing is lost in storing it. -/
theorem signedValue_requantSample :
    signedValue new (requantSample old new x) = convertBits (signedValue old x) old.bits new.bits :=
  signedValue_storedSample (fitsSigned_convertBits_signedValue hx new)

theorem canonical_requantSample : canonical new (requantSample old new x) = true := by
  rw [canonical_iff_fitsSigned, signedValue_requantSample hx]
  exact fitsSigned_convertBits_signedValue hx new

end Canonical

/-- Settles O25: each sample of the written buffer is a converted one. -/
theorem requantKeepsSamplesCanonical : Obligations.RequantKeepsSamplesCanonical := by
  unfold Obligations.RequantKeepsSamplesCanonical
  intro d res s new h hnew
  refine ⟨_, exec_requant hnew d s, ?_⟩
  rw [State.readP_writeP_same _ _ _ (lt_p_length_of_ready h (List.mem_cons_self ..))]
  refine ⟨rfl, fun hcanonical => List.forall_mem_map.mpr fun x hx => ?canonical, ?eight⟩
  case canonical => exact canonical_requantSample (hcanonical x hx) new
  case eight =>
    rintro rfl
    exact List.forall_mem_map.mpr fun x _ => storedSample_r8_toNat_le _

/-! ## Round trips (R128) -/

/-- A raised value has no discarded bits, so its round bit is clear: lowering it again takes a negative value one down,
except where the clamp stops it. -/
theorem lowerBy_mul_two_pow {n k : Nat} {v : Int} (h : FitsSigned n v) (hk : 0 < k) :
    lowerBy (v * 2 ^ k) k n = if -(2 ^ (n - 1)) < v ∧ v < 0 then v - 1 else v := by
  obtain ⟨hlo, hhi⟩ := h
  have hpos : (0 : Int) < 2 ^ k := by positivity
  have hlowered : loweredValue (v * 2 ^ k) k = if 0 ≤ v then v else v - 1 := by
    rw [loweredValue, Int.mul_ediv_cancel v hpos.ne', Int.mul_emod_left, mul_zero, if_neg (not_le.mpr hpos),
      if_neg (not_le.mpr hpos)]
    exact if_congr (mul_nonneg_iff_of_pos_right hpos) rfl rfl
  rw [lowerBy_eq_loweredValue _ hk, hlowered]
  split <;> split <;> omega

/-- What comes back of a canonical sample that is raised and lowered again: one less where its value is negative and
not the least. -/
def roundTripSample (r : Resolution) (x : Sample) : Sample :=
  if -(2 ^ (r.bits - 1)) < signedValue r x ∧ signedValue r x < 0 then x - 1 else x

theorem roundTripSample_r8 (x : Sample) :
    roundTripSample .r8 x = if 1 ≤ x.toInt ∧ x.toInt ≤ 127 then x - 1 else x := by
  simp only [roundTripSample, signedValue, Resolution.bits, if_true]
  exact if_congr (by omega) rfl rfl

theorem roundTripSample_r16 (x : Sample) :
    roundTripSample .r16 x = if -32767 ≤ x.toInt ∧ x.toInt ≤ -1 then x - 1 else x := by
  simp only [roundTripSample, signedValue, Resolution.bits, reduceCtorEq, if_false]
  exact if_congr (by omega) rfl rfl

theorem requantSample_requantSample {old new : Resolution} (hup : old.bits < new.bits) {x : Sample}
    (hx : canonical old x = true) : requantSample new old (requantSample old new x) = roundTripSample old x := by
  have hfits := (canonical_iff_fitsSigned old x).mp hx
  rw [requantSample_eq_storedSample new, signedValue_requantSample hx, convertBits_of_le hup.le,
    convertBits_of_lt hup, lowerBy_mul_two_pow hfits (Nat.sub_pos_of_lt hup), roundTripSample]
  split
  case isTrue hneg =>
    have hbelow : FitsSigned old.bits (signedValue old x - 1) := ⟨by omega, by have := hfits.2; omega⟩
    rw [storedSample_eq_add hbelow (sub_eq_add_neg ..), BitVec.sub_eq_add_neg]
    rfl
  case isFalse =>
    rw [storedSample_eq_add hfits (add_zero _).symm]
    exact BitVec.add_zero x

theorem requantBuffer_requantBuffer {b : PcmBuffer} {new : Resolution} (hup : b.res.bits < new.bits)
    (hb : ∀ x ∈ b.s, canonical b.res x = true) :
    requantBuffer b.res (requantBuffer new b) = { b with s := b.s.map (roundTripSample b.res) } := by
  have hmap : (b.s.map (requantSample b.res new)).map (requantSample new b.res) = b.s.map (roundTripSample b.res) := by
    rw [List.map_map]
    exact List.map_congr_left fun x hx => requantSample_requantSample hup (hb x hx)
  simp only [requantBuffer, hmap]

/-- Two `REQUANT`s of one buffer: the second reads what the first has written, and writes over it. -/
theorem exec_requant_requant {d : RegField} {s : State} {up down : Imm} {new : Resolution}
    (hd : d.toNat < s.p.length) (hnew : new.bits = up.toNat) (hold : (s.readP d).res.bits = down.toNat)
    (hup : (s.readP d).res.bits < new.bits) (hb : ∀ x ∈ (s.readP d).s, canonical (s.readP d).res x = true) :
    ∃ t, exec (.requant d up) s = .next t ∧ exec (.requant d down) t = .next (s.writeP d
      { s.readP d with s := (s.readP d).s.map (roundTripSample (s.readP d).res) }) := by
  refine ⟨_, exec_requant hnew d s, ?_⟩
  rw [exec_requant hold, State.readP_writeP_same _ _ _ hd, requantBuffer_requantBuffer hup hb]
  simp only [State.writeP, List.set_set]

/-- Settles O26: the round trip of each sample, at 8 and at 16 bits. -/
theorem requantRoundTrips : Obligations.RequantRoundTrips := by
  unfold Obligations.RequantRoundTrips
  intro d s h hb
  have hd := lt_p_length_of_ready h (List.mem_cons_self ..)
  refine ⟨fun hres => ?eight, fun hres => ?sixteen⟩
  case eight =>
    have htrip := exec_requant_requant (up := 16) (down := 8) (new := .r16) hd rfl (hres ▸ rfl) (hres ▸ by decide) hb
    rwa [hres, funext roundTripSample_r8] at htrip
  case sixteen =>
    have htrip := exec_requant_requant (up := 32) (down := 16) (new := .r32) hd rfl (hres ▸ rfl) (hres ▸ by decide) hb
    rwa [hres, funext roundTripSample_r16] at htrip

end Sys2Proof.Machine
end

section
/-! The resampler (42_resampler.md): the growth loop runs the least number of rounds for every channel alike, a round
puts the means between the samples, and the nearest indices of the grown channels are what `RESIZE` writes. -/

namespace Sys2Proof.Machine

open Sys2Proof.Closed

/-! ## The command (R135 to R137) -/

theorem State.raiseIf_ovf_eq (s : State) (cond : Prop) [Decidable cond] :
    s.raiseIf (decide cond) .ovf = { s with status := s.status ||| (if cond then 0x01#32 else 0#32) } := by
  have hmask : (if decide cond then Flag.ovf.mask else 0) = if cond then 0x01#32 else 0#32 :=
    if_congr decide_eq_true_iff rfl rfl
  rw [State.raiseIf, hmask]

theorem exec_resize {s : State} {d : RegField} (h : 2 ≤ (s.readP d).spc) (n : Imm) :
    exec (.resize d n) s = .next ((s.raiseIf (decide (sizeCap s.cfg (s.readP d) < n.toNat)) .ovf).writeP d
      (resizeBuffer (min n.toNat (sizeCap s.cfg (s.readP d))) (s.readP d))) :=
  if_neg (not_lt.mpr h)

theorem exec_resize_short {s : State} {d : RegField} (h : (s.readP d).spc < 2) (n : Imm) :
    exec (.resize d n) s = .next (s.raiseIf (decide (sizeCap s.cfg (s.readP d) < n.toNat)) .ovf) :=
  if_pos h

/-- A request within the cap raises no flag and is the target (R136). -/
theorem exec_resize_of_le_cap {s : State} {d : RegField} (h : 2 ≤ (s.readP d).spc) {n : Imm}
    (hn : n.toNat ≤ sizeCap s.cfg (s.readP d)) :
    exec (.resize d n) s = .next (s.writeP d (resizeBuffer n.toNat (s.readP d))) := by
  have hflag : s.raiseIf (decide (sizeCap s.cfg (s.readP d) < n.toNat)) .ovf = s := by
    rw [State.raiseIf_ovf_eq, if_neg (not_lt.mpr hn), BitVec.or_zero]
  rw [exec_resize h, hflag, min_eq_left hn]

/-- Settles O28: the branch of the no-op, with the flag raised before it. -/
theorem resizeLeavesShortBuffersAlone : Obligations.ResizeLeavesShortBuffersAlone := by
  unfold Obligations.ResizeLeavesShortBuffersAlone
  intro d n s _ hshort
  rw [exec_resize_short hshort, State.raiseIf_ovf_eq]
  rfl

/-! ## The growth phase (R138, R139) -/

theorem meanOf_eq_mean16 (a b : Sample) : meanOf a b = mean16 a b := rfl

theorem leastRounds_unique {n target q r : Nat} (hq : LeastRounds n target q) (hr : LeastRounds n target r) : q = r := by
  obtain ⟨hqreach, hqleast⟩ := hq
  obtain ⟨hrreach, hrleast⟩ := hr
  rcases lt_trichotomy q r with hlt | heq | hgt
  · exact absurd hqreach (not_le.mpr (hrleast q hlt))
  · exact heq
  · exact absurd hrreach (not_le.mpr (hqleast r hgt))

theorem grownSize_zero {n : Nat} (hn : 1 ≤ n) : grownSize n 0 = n := by
  rw [grownSize, pow_zero, one_mul, Nat.sub_add_cancel hn]

/-- A buffer that does not grow takes no rounds. -/
theorem leastRounds_zero {n target : Nat} (hn : 1 ≤ n) (h : target ≤ n) : LeastRounds n target 0 :=
  ⟨(grownSize_zero hn).symm ▸ h, fun _ hq => absurd hq (Nat.not_lt_zero _)⟩

theorem growRounds_succ_eq_grow (r : Nat) (x : List Sample) : growRounds (r + 1) x = grow (growRounds r x) := by
  induction r generalizing x with
  | zero => rfl
  | succ r ih => exact ih (grow x)

section Channel

variable {x : List Sample} (hx : 2 ≤ x.length)
include hx

theorem growRounds_length_eq_grownSize (r : Nat) : (growRounds r x).length = grownSize x.length r :=
  growRounds_length (Nat.le_of_succ_le hx) r

/-- `target` rounds of fuel never run out (R138). -/
theorem exists_leastRounds_growTo_eq (target : Nat) :
    ∃ r, LeastRounds x.length target r ∧ growTo target target x = growRounds r x := by
  obtain ⟨r, hgrow, hreach, hleast⟩ := growTo_eq_growRounds target target hx (Nat.le_add_right ..)
  simp only [growRounds_length_eq_grownSize hx] at hreach hleast
  exact ⟨r, ⟨hreach, hleast⟩, hgrow⟩

theorem growTo_eq_of_leastRounds {target r : Nat} (hr : LeastRounds x.length target r) :
    growTo target target x = growRounds r x := by
  obtain ⟨q, hq, hgrow⟩ := exists_leastRounds_growTo_eq hx target
  rw [hgrow, leastRounds_unique hq hr]

/-- The rounds of R138 by index: an even place keeps a sample of the round before, an odd one holds the mean of two. -/
theorem growRounds_getD {f : Nat → Sample} (hf : ∀ j < x.length, x.getD j 0 = f j) (r : Nat) {i : Nat}
    (hi : i < grownSize x.length r) : (growRounds r x).getD i 0 = grownAt f r i := by
  induction r generalizing i with
  | zero => exact hf i (grownSize_zero (Nat.le_of_succ_le hx) ▸ hi)
  | succ r ih =>
    have hlen := growRounds_length_eq_grownSize hx r
    have hsize : grownSize x.length (r + 1) = 2 * grownSize x.length r - 1 := by
      rw [← growRounds_length_eq_grownSize hx, growRounds_succ_eq_grow, grow_length, hlen]
    obtain ⟨hsample, hmean⟩ := grow_getD (growRounds r x) (i / 2)
    rw [growRounds_succ_eq_grow, grownAt]
    rcases Nat.mod_two_eq_zero_or_one i with heven | hodd
    · have hplace : i = 2 * (i / 2) := by omega
      rw [if_pos heven, ← ih (by omega), ← hsample (by omega), ← hplace]
    · have hplace : i = 2 * (i / 2) + 1 := by omega
      rw [if_neg (by omega), ← ih (by omega), ← ih (by omega), meanOf_eq_mean16, ← hmean (by omega),
        ← hplace]

end Channel

/-! ## The resized buffer by index (R140, R141) -/

theorem resizeChannel_getD_of_leastRounds {x : List Sample} (hx : 2 ≤ x.length) {f : Nat → Sample}
    (hf : ∀ j < x.length, x.getD j 0 = f j) {target r i : Nat} (hr : LeastRounds x.length target r) (hi : i < target) :
    (resizeChannel target x).getD i 0 = grownAt f r (decimationIndex (grownSize x.length r) target i) := by
  have hindex : decimationIndex (grownSize x.length r) target i < grownSize x.length r :=
    Nat.lt_of_le_of_lt (min_le_right ..) (Nat.lt_succ_self _)
  rw [resizeChannel_getD _ _ hi, growTo_eq_of_leastRounds hx hr, growRounds_length_eq_grownSize hx,
    growRounds_getD hx hf r hindex]

/-- Sample `i` of channel `c` lies within `n` samples of each of `ch` channels. -/
theorem interleavedIndex_lt {n ch i c : Nat} (hi : i < n) (hc : c < ch) : i * ch + c < n * ch :=
  calc i * ch + c < i * ch + ch := Nat.add_lt_add_left hc _
    _ = (i + 1) * ch := (Nat.succ_mul i ch).symm
    _ ≤ n * ch := Nat.mul_le_mul_right ch hi

theorem resizeBuffer_getElem? {b : PcmBuffer} (hb : 2 ≤ b.spc) {target r i c : Nat} (hr : LeastRounds b.spc target r)
    (hi : i < target) (hc : c < b.ch.count) : (resizeBuffer target b).s[i * b.ch.count + c]? =
      some (grownAt (fun j => b.s.getD (j * b.ch.count + c) 0) r (decimationIndex (grownSize b.spc r) target i)) := by
  have hlen := b.channel_length c
  have hlt : i * b.ch.count + c < (resizeBuffer target b).s.length :=
    resizeBuffer_length target b ▸ interleavedIndex_lt hi hc
  have hchannel := resizeChannel_getD_of_leastRounds (hlen.symm ▸ hb) (fun j hj => b.channel_getD c (hlen ▸ hj))
    (hlen.symm ▸ hr) hi
  rw [List.getElem?_eq_getElem hlt, ← List.getD_eq_getElem _ 0, resizeBuffer_getD target b hi hc, hchannel, hlen]

/-- Settles O27: the rounds are those of channel 0, and the closed form is that of the buffer written. -/
theorem resizeGrowsThenTakesNearestIndices : Obligations.ResizeGrowsThenTakesNearestIndices := by
  unfold Obligations.ResizeGrowsThenTakesNearestIndices
  intro d n s _ hspc
  refine ⟨assembleFields_toNat .., ?_⟩
  rintro _ _ target rfl rfl htarget
  have hlen := (s.readP d).channel_length 0
  obtain ⟨r, hr, -⟩ := exists_leastRounds_growTo_eq (hlen.symm ▸ hspc) target
  rw [hlen] at hr
  refine ⟨r, (resizeBuffer target (s.readP d)).s, hr, ?exec, resizeBuffer_length .., fun i hi c hc =>
    resizeBuffer_getElem? hspc hr hi hc⟩
  case exec =>
    rw [exec_resize hspc, State.raiseIf_ovf_eq, htarget]
    rfl

/-! ## Whole factors (R142) -/

theorem decimationIndex_of_factor {f n i : Nat} (hf : 1 ≤ f) (hi : i < n) : decimationIndex (f * n) n i = i * f := by
  have hdiv : i * (f * n) / n = i * f := by
    rw [← mul_assoc, Nat.mul_div_cancel _ (Nat.zero_lt_of_lt hi)]
  have hlast : i * f + f ≤ f * n := by
    rw [← Nat.succ_mul, mul_comm f]
    exact Nat.mul_le_mul_right f hi
  rw [decimationIndex, hdiv, min_eq_left (by omega)]

section WholeFactor

variable {p : Params} {b : PcmBuffer} (hwf : b.Wf p) (hb : 2 ≤ b.spc)
include hwf

theorem spc_le_sizeCap : b.spc ≤ sizeCap p b := by
  obtain ⟨hlen, hcap⟩ := hwf
  exact (Nat.le_div_iff_mul_le b.ch.count_pos).mpr (hlen ▸ hcap)

include hb

theorem resizeBuffer_factor_getElem? {f n i c : Nat} (hfactor : b.spc = f * n) (hi : i < n) (hc : c < b.ch.count) :
    (resizeBuffer n b).s[i * b.ch.count + c]? = b.s[i * f * b.ch.count + c]? := by
  have hf : 1 ≤ f := Nat.pos_of_ne_zero fun h => by rw [h, zero_mul] at hfactor; omega
  have hn : n ≤ b.spc := hfactor ▸ Nat.le_mul_of_pos_left n hf
  have hsource : i * f < b.spc := by
    rw [hfactor, mul_comm f]
    exact Nat.mul_lt_mul_of_pos_right hi hf
  have hlt : i * f * b.ch.count + c < b.s.length := hwf.1 ▸ interleavedIndex_lt hsource hc
  have hspc : 1 ≤ b.spc := Nat.le_of_succ_le hb
  rw [resizeBuffer_getElem? hb (leastRounds_zero hspc hn) hi hc, grownSize_zero hspc, grownAt, hfactor,
    decimationIndex_of_factor hf hi, List.getD_eq_getElem _ 0 hlt, List.getElem?_eq_getElem hlt]

/-- The first property of R142: every place of the buffer is place `c` of some block, which factor 1 keeps. -/
theorem resizeBuffer_self : resizeBuffer b.spc b = b := by
  have hlen : (resizeBuffer b.spc b).s.length = b.s.length := (resizeBuffer_length b.spc b).trans hwf.1.symm
  have hsamples : (resizeBuffer b.spc b).s = b.s := by
    refine List.ext_getElem? fun k => ?_
    rcases lt_or_ge k (b.spc * b.ch.count) with hk | hk
    · have hblock : k / b.ch.count < b.spc := Nat.div_lt_of_lt_mul (mul_comm b.spc _ ▸ hk)
      have hsame := resizeBuffer_factor_getElem? hwf hb (one_mul b.spc).symm hblock (Nat.mod_lt k b.ch.count_pos)
      rwa [mul_one, Nat.div_add_mod'] at hsame
    · rw [List.getElem?_eq_none (hlen ▸ hwf.1 ▸ hk), List.getElem?_eq_none (hwf.1 ▸ hk)]
  calc resizeBuffer b.spc b = { b with s := (resizeBuffer b.spc b).s } := rfl
    _ = b := by rw [hsamples]

end WholeFactor

theorem State.writeP_readP (s : State) {r : RegField} (h : r.toNat < s.p.length) : s.writeP r (s.readP r) = s := by
  simp [State.writeP, State.readP, h]

/-- Settles O29: neither the cap nor the growth phase applies. -/
theorem resizeByWholeFactorSelects : Obligations.ResizeByWholeFactorSelects := by
  unfold Obligations.ResizeByWholeFactorSelects
  intro d n f s hready hspc _ hfactor
  have hd := lt_p_length_of_ready hready (List.mem_cons_self ..)
  have hwf := State.readP_wf hready.1 d
  have hn : n.toNat ≤ (s.readP d).spc := Nat.le_of_dvd (by omega) ⟨f, hfactor.trans (mul_comm ..)⟩
  have hexec := exec_resize_of_le_cap hspc (hn.trans (spc_le_sizeCap hwf))
  refine ⟨?identity, _, hexec, rfl, ?size, fun i hi c hc => ?select⟩
  case identity =>
    rintro rfl
    rw [one_mul] at hfactor
    rw [hexec, ← hfactor, resizeBuffer_self hwf hspc, State.writeP_readP s hd]
  case size =>
    rw [State.readP_writeP_same _ _ _ hd]
    rfl
  case select =>
    rw [State.readP_writeP_same _ _ _ hd]
    exact resizeBuffer_factor_getElem? hwf hspc hfactor hi hc

end Sys2Proof.Machine
end

section
/-! Channel extraction, trim and clone (43_channel_trim_clone.md): each copies a part of the source, so what it stores is
the source's own samples by index; a clone and its original are two buffers of the file, and an in-place command writes
one of them. -/

namespace Sys2Proof.Machine

open Sys2Proof.Closed

/-! ## CHSEL (R150, R151) -/

/-- The channel `CHSEL` takes: the one named when the source has it, otherwise channel 0 (R151). -/
def selectedChannel (c : Nat) (ch : Channels) : Nat := if c < ch.count then c else 0

theorem selectedChannel_lt (c : Nat) (ch : Channels) : selectedChannel c ch < ch.count := by
  rw [selectedChannel]
  split
  case isTrue hc => exact hc
  case isFalse => exact ch.count_pos

theorem exec_chsel (d a : RegField) (c : Imm) (s : State) :
    exec (.chsel d a c) s = .next ((s.raiseIf (!decide (c.toNat < (s.readP a).ch.count)) .ich).writeP d
      (channelBuffer (s.readP a) (selectedChannel c.toNat (s.readP a).ch))) := by
  simp only [exec, execChsel, selectedChannel, decide_eq_true_eq]

theorem ichBits_eq (c n : Nat) :
    (if (!decide (c < n)) = true then Flag.ich.mask else 0) = if n ≤ c then 0x04#32 else 0#32 :=
  if_congr (by rw [Bool.not_eq_true', decide_eq_false_iff_not, not_lt]) rfl rfl

/-- A channel of a well-formed buffer is the source's samples themselves: no read falls past its end (R25). -/
theorem PcmBuffer.channel_getElem? {p : Params} {b : PcmBuffer} (h : b.Wf p) {k c : Nat} (hk : k < b.spc)
    (hc : c < b.ch.count) : (b.channel c)[k]? = b.s[k * b.ch.count + c]? := by
  have hlt : k < (b.channel c).length := (b.channel_length c).symm ▸ hk
  have hsource : k * b.ch.count + c < b.s.length := h.1 ▸ interleavedIndex_lt hk hc
  rw [List.getElem?_eq_getElem hlt, List.getElem?_eq_getElem hsource, ← List.getD_eq_getElem _ 0,
    ← List.getD_eq_getElem _ 0, b.channel_getD c hk]

/-- Settles O30: the samples written are those of the selected channel, which the source always has. -/
theorem chselExtractsOneChannel : Obligations.ChselExtractsOneChannel := by
  unfold Obligations.ChselExtractsOneChannel
  rintro d a c s ⟨hwf, -⟩
  refine ⟨assembleFields_toNat .., (s.readP a).channel (selectedChannel c.toNat (s.readP a).ch), ?exec,
    PcmBuffer.channel_length .., fun k hk =>
      PcmBuffer.channel_getElem? (State.readP_wf hwf a) hk (selectedChannel_lt ..)⟩
  case exec =>
    rw [exec_chsel, State.raiseIf, ichBits_eq]
    rfl

/-! ## TRIM (R154, R155) -/

theorem exec_trim {s : State} {a : RegField} {start size : Imm}
    (h : start.toNat + size.toNat ≤ (s.readP a).spc) (d : RegField) :
    exec (.trim d a start size) s = .next (s.writeP d (trimBuffer (s.readP a) start.toNat size.toNat)) :=
  if_neg (not_lt.mpr h)

theorem exec_trim_beyond {s : State} {a : RegField} {start size : Imm}
    (h : (s.readP a).spc < start.toNat + size.toNat) (d : RegField) :
    exec (.trim d a start size) s = .next ((s.raise .oor).writeP d PcmBuffer.default) :=
  if_pos h

theorem trimBuffer_getElem? (b : PcmBuffer) (start : Nat) {size k : Nat} (hk : k < size * b.ch.count) :
    (trimBuffer b start size).s[k]? = b.s[start * b.ch.count + k]? := by
  rw [trimBuffer, List.getElem?_take_of_lt hk, List.getElem?_drop]

/-- Settles O31: the branch of a range the source has, whose buffer is known by its length and its elements. -/
theorem trimCopiesTheRange : Obligations.TrimCopiesTheRange := by
  unfold Obligations.TrimCopiesTheRange
  rintro d a start size s ⟨hwf, -⟩ hfits
  exact ⟨assembleFields_toNat .., (trimBuffer (s.readP a) start.toNat size.toNat).s, exec_trim hfits d,
    trimBuffer_length (State.readP_wf hwf a) hfits, fun k hk => trimBuffer_getElem? _ _ hk⟩

/-- Settles O32: the branch of a range the source does not have. -/
theorem trimBeyondTheSourceGivesTheDefaultBuffer : Obligations.TrimBeyondTheSourceGivesTheDefaultBuffer := by
  unfold Obligations.TrimBeyondTheSourceGivesTheDefaultBuffer
  intro d a start size s _ hbeyond
  exact exec_trim_beyond hbeyond d

/-! ## PCLONE (R158, R159) -/

theorem exec_pclone (d a : RegField) (s : State) : exec (.pclone d a) s = .next (s.writeP d (s.readP a)) := rfl

theorem State.p_getElem? {s : State} {r : RegField} (h : r.toNat < s.p.length) : s.p[r.toNat]? = some (s.readP r) := by
  simp [State.readP, h]

/-- Settles O33: the file holds the buffer a well-formed command names, and that buffer is what is written. -/
theorem pcloneCopiesTheBuffer : Obligations.PcloneCopiesTheBuffer := by
  unfold Obligations.PcloneCopiesTheBuffer
  intro d a s hready
  have ha : a.toNat < s.p.length := lt_p_length_of_ready hready (List.mem_cons_of_mem d (List.mem_singleton_self a))
  exact ⟨assembleFields_toNat .., s.readP a, State.p_getElem? ha, exec_pclone d a s⟩

/-- A command whose destination is another buffer leaves `P[q]` (R50). -/
theorem readP_of_exec_of_pDest {i : Instr} {s t : State} {d q : RegField} (h : exec i s = .next t)
    (hdest : pDest i = some d) (hq : q ≠ d) : t.readP q = s.readP q := by
  have hother : ∀ e, pDest i = some e → q.toNat ≠ e.toNat := by
    intro e he hqe
    obtain rfl : d = e := Option.some.inj (hdest.symm.trans he)
    exact hq (BitVec.eq_of_toNat_eq hqe)
  rw [State.readP, State.readP, List.getD_eq_getElem?_getD, List.getD_eq_getElem?_getD,
    (exec_writesOnlyDest h).p q.toNat hother]

/-- Settles O34: the clone and the in-place command both have `P[d]` as their only destination among the buffers. -/
theorem clonesShareNothing : Obligations.ClonesShareNothing := by
  unfold Obligations.ClonesShareNothing
  rintro d a x s i ⟨hwf, -⟩ hne hi
  have hdest : pDest i = some d := by rcases hi with rfl | rfl | rfl <;> rfl
  obtain ⟨t, ht, htwf⟩ := exec_answersWf hwf (.pclone d a)
  obtain ⟨u, hu, -⟩ := exec_answersWf htwf i
  refine ⟨t, u, ht, hu, ?_⟩
  calc u.readP a = t.readP a := readP_of_exec_of_pDest hu hdest hne.symm
    _ = s.readP a := readP_of_exec_of_pDest ht rfl hne.symm

end Sys2Proof.Machine
end

section
/-! The normalize and morph unit (44_normalize_morph.md). `NORM` works on magnitudes: the peak becomes `M * T / 32768`
and bounds the others, and a second scaling to that peak gives every magnitude back. `MORPH` interpolates with weights
that are not negative, so its result is monotone in both sources and lies between them. -/

namespace Sys2Proof.Machine

open Sys2Proof.Closed

/-! ## NORM (R165, R166) -/

theorem exec_norm (d : RegField) (t : Imm) (s : State) :
    exec (.norm d t) s = .next ((s.raiseIf (decide (32768 < t.toNat)) .oor).writeP d
      (normBuffer (min t.toNat 32768) (s.readP d))) := rfl

theorem State.raiseIf_decide_eq (s : State) (cond : Prop) [Decidable cond] (f : Flag) :
    s.raiseIf (decide cond) f = { s with status := s.status ||| (if cond then f.mask else 0) } := by
  rw [State.raiseIf, if_congr decide_eq_true_iff rfl rfl]

theorem isPeak_peak (x : List Sample) : IsPeak x (peak x) := peak_spec x

theorem isPeak_unique {x : List Sample} {m n : Nat} (hm : IsPeak x m) (hn : IsPeak x n) : m = n := by
  have hle {m n : Nat} (hm : IsPeak x m) (hn : IsPeak x n) : m ≤ n := by
    rcases hm.2 with rfl | ⟨y, hy, rfl⟩
    · exact Nat.zero_le n
    · exact hn.1 y hy
  exact le_antisymm (hle hm hn) (hle hn hm)

theorem peak_eq_of_isPeak {x : List Sample} {m : Nat} (h : IsPeak x m) : peak x = m :=
  isPeak_unique (isPeak_peak x) h

theorem peak_ne_zero_of_mem {x : List Sample} {y : Sample} (hy : y ∈ x) (hne : y ≠ 0) : peak x ≠ 0 := by
  intro hzero
  have hbound := (isPeak_peak x).1 y hy
  rw [hzero, Nat.le_zero, Int.natAbs_eq_zero] at hbound
  exact hne (BitVec.eq_of_toInt_eq hbound)

theorem normBuffer_of_peak_eq_zero {b : PcmBuffer} (h : peak b.s = 0) (t : Nat) : normBuffer t b = b := if_pos h

theorem normBuffer_of_peak_ne_zero {b : PcmBuffer} (h : peak b.s ≠ 0) (t : Nat) :
    normBuffer t b = { b with s := b.s.map (normSample (maxAmplitude b.res) t (peak b.s)) } := if_neg h

@[simp] theorem normBuffer_res (t : Nat) (b : PcmBuffer) : (normBuffer t b).res = b.res := by
  rw [normBuffer]
  split <;> rfl

/-- Both branches of R165 as one map: a peak of 0 keeps each sample. -/
theorem normBuffer_eq_map (t : Nat) (b : PcmBuffer) : normBuffer t b = { b with
    s := b.s.map fun x => if peak b.s = 0 then x else normSample (maxAmplitude b.res) t (peak b.s) x } := by
  by_cases h : peak b.s = 0
  · simp only [normBuffer_of_peak_eq_zero h, if_pos h, List.map_id']
  · simp only [normBuffer_of_peak_ne_zero h, if_neg h]

/-- Settles O35: the peak of the model is the peak of the statement, and both branches of R165 are one map. -/
theorem normScalesByTheExactFraction : Obligations.NormScalesByTheExactFraction := by
  unfold Obligations.NormScalesByTheExactFraction
  intro d t s m _ hpeak
  have htarget : min t.toNat 32768 = if 32768 < t.toNat then 32768 else t.toNat := by
    split <;> omega
  refine ⟨assembleFields_toNat .., ?_⟩
  rw [exec_norm, normBuffer_eq_map, peak_eq_of_isPeak hpeak, htarget, State.raiseIf_decide_eq]
  rfl

/-! ## Magnitudes after NORM (R165, R169) -/

/-- `M` of R167 as a natural number. -/
def fullScale (r : Resolution) : Nat := 2 ^ (r.bits - 1) - 1

theorem maxAmplitude_eq_fullScale (r : Resolution) : maxAmplitude r = fullScale r := by cases r <;> rfl

theorem fullScale_lt (r : Resolution) : fullScale r < 2 ^ 31 := by cases r <;> decide

/-- The peak of the buffer `NORM` leaves when it scales (R169). -/
def scaledPeak (r : Resolution) (t : Nat) : Nat := fullScale r * t / 32768

theorem scaledPeak_le_fullScale (r : Resolution) {t : Nat} (ht : t ≤ 32768) : scaledPeak r t ≤ fullScale r :=
  Nat.div_le_of_le_mul (mul_comm 32768 _ ▸ Nat.mul_le_mul_left _ ht)

/-- The magnitude `NORM` gives a sample of magnitude `n` when the peak is `pk`. -/
def scaledMagnitude (r : Resolution) (t pk n : Nat) : Nat := n * (fullScale r * t) / (32768 * pk)

theorem scaledMagnitude_peak (r : Resolution) (t : Nat) {pk : Nat} (hpk : 0 < pk) :
    scaledMagnitude r t pk pk = scaledPeak r t := by
  rw [scaledMagnitude, mul_comm 32768, Nat.mul_div_mul_left _ _ hpk, scaledPeak]

theorem scaledMagnitude_le (r : Resolution) (t : Nat) {pk n : Nat} (hpk : 0 < pk) (hn : n ≤ pk) :
    scaledMagnitude r t pk n ≤ scaledPeak r t :=
  calc scaledMagnitude r t pk n ≤ scaledMagnitude r t pk pk := Nat.div_le_div_right (Nat.mul_le_mul_right _ hn)
    _ = scaledPeak r t := scaledMagnitude_peak r t hpk

/-- The argument of R169: the factor that brings the scaled peak `p` to the target again is at least 1 and less than
`1 + 1 / p`, so it adds less than 1 to a magnitude within `p`. -/
theorem scaledMagnitude_scaledPeak {r : Resolution} {t n : Nat} (hpos : 0 < scaledPeak r t) (hn : n ≤ scaledPeak r t) :
    scaledMagnitude r t (scaledPeak r t) n = n := by
  have hdiv : 32768 * scaledPeak r t + fullScale r * t % 32768 = fullScale r * t := Nat.div_add_mod ..
  have hrem : n * (fullScale r * t % 32768) < 32768 * scaledPeak r t :=
    calc n * (fullScale r * t % 32768) ≤ scaledPeak r t * (fullScale r * t % 32768) := Nat.mul_le_mul_right _ hn
      _ < scaledPeak r t * 32768 := Nat.mul_lt_mul_of_pos_left (Nat.mod_lt _ (by decide)) hpos
      _ = 32768 * scaledPeak r t := mul_comm ..
  rw [scaledMagnitude, ← hdiv, mul_add, Nat.add_div_of_dvd_right (dvd_mul_left ..), Nat.div_eq_of_lt hrem,
    Nat.mul_div_cancel _ (by omega), add_zero]

/-- The value `NORM` gives a sample of value `v` when the peak is `pk`, before `wrap32`. -/
def scaledValue (r : Resolution) (t pk : Nat) (v : Int) : Int :=
  Int.tdiv (v * (fullScale r * t : Nat)) (32768 * pk : Nat)

theorem normSample_eq_wrap32 (r : Resolution) (t pk : Nat) (x : Sample) :
    normSample (maxAmplitude r) t pk x = wrap32 (scaledValue r t pk x.toInt) := by
  rw [normSample, maxAmplitude_eq_fullScale, mul_assoc, ← Nat.cast_mul]
  rfl

/-- Truncation toward zero divides the magnitude. -/
theorem natAbs_scaledValue (r : Resolution) (t pk : Nat) (v : Int) :
    (scaledValue r t pk v).natAbs = scaledMagnitude r t pk v.natAbs := by
  rw [scaledValue, Int.natAbs_tdiv, Int.natAbs_mul, Int.natAbs_natCast, Int.natAbs_natCast]
  rfl

/-- A value whose magnitude the scaling gives back is given back with its sign. -/
theorem scaledValue_eq_self {r : Resolution} {t pk : Nat} {v : Int}
    (h : scaledMagnitude r t pk v.natAbs = v.natAbs) : scaledValue r t pk v = v := by
  have hnat {n : Nat} (h : scaledMagnitude r t pk n = n) : scaledValue r t pk n = n := by
    rw [scaledValue, ← Nat.cast_mul, ← Int.ofNat_tdiv]
    exact congrArg Nat.cast h
  obtain ⟨n, rfl | rfl⟩ := v.eq_nat_or_neg
  · exact hnat h
  · rw [Int.natAbs_neg, Int.natAbs_natCast] at h
    calc scaledValue r t pk (-n) = -scaledValue r t pk n := by rw [scaledValue, Int.neg_mul, Int.neg_tdiv]; rfl
      _ = -n := by rw [hnat h]

section Scaling

variable {r : Resolution} {t pk : Nat} {x : Sample}

/-- A magnitude within full scale fits 32 bits, so `wrap32` changes nothing (R165). -/
theorem natAbs_toInt_normSample (ht : t ≤ 32768) (hpk : 0 < pk) (hx : x.toInt.natAbs ≤ pk) :
    (normSample (maxAmplitude r) t pk x).toInt.natAbs = scaledMagnitude r t pk x.toInt.natAbs := by
  have hvalue := natAbs_scaledValue r t pk x.toInt
  have hle := (scaledMagnitude_le r t hpk hx).trans (scaledPeak_le_fullScale r ht)
  have hlt := fullScale_lt r
  rw [normSample_eq_wrap32, toInt_wrap32 (by omega) (by omega), hvalue]

theorem normSample_scaledPeak (hpos : 0 < scaledPeak r t) (hx : x.toInt.natAbs ≤ scaledPeak r t) :
    normSample (maxAmplitude r) t (scaledPeak r t) x = x := by
  rw [normSample_eq_wrap32, scaledValue_eq_self (scaledMagnitude_scaledPeak hpos hx), wrap32, BitVec.ofInt_toInt]

end Scaling

/-- The sample of the largest magnitude stays that of the largest magnitude. -/
theorem isPeak_normBuffer {b : PcmBuffer} {t : Nat} (ht : t ≤ 32768) (hpeak : peak b.s ≠ 0) :
    IsPeak (normBuffer t b).s (scaledPeak b.res t) := by
  have hpk : 0 < peak b.s := Nat.pos_of_ne_zero hpeak
  obtain ⟨hbound, hzero | ⟨y, hy, hattained⟩⟩ := isPeak_peak b.s
  · exact absurd hzero hpeak
  have hmagnitude {x : Sample} (hx : x ∈ b.s) := natAbs_toInt_normSample (r := b.res) ht hpk (hbound x hx)
  rw [normBuffer_of_peak_ne_zero hpeak]
  refine ⟨List.forall_mem_map.mpr fun x hx => ?bound, .inr ⟨_, List.mem_map_of_mem hy, ?attained⟩⟩
  case bound => exact (hmagnitude hx).trans_le (scaledMagnitude_le _ t hpk (hbound x hx))
  case attained => rw [hmagnitude hy, hattained, scaledMagnitude_peak _ t hpk]

/-- A buffer whose peak is the scaled one is left as it is. -/
theorem normBuffer_eq_self {b : PcmBuffer} {t : Nat} (h : IsPeak b.s (scaledPeak b.res t)) : normBuffer t b = b := by
  have hpeak := peak_eq_of_isPeak h
  rcases Nat.eq_zero_or_pos (scaledPeak b.res t) with hzero | hpos
  · exact normBuffer_of_peak_eq_zero (hpeak.trans hzero) t
  · have hsamples : b.s.map (normSample (maxAmplitude b.res) t (scaledPeak b.res t)) = b.s :=
      (List.map_congr_left fun x hx => normSample_scaledPeak hpos (h.1 x hx)).trans (List.map_id b.s)
    rw [normBuffer_of_peak_ne_zero (hpeak ▸ hpos.ne'), hpeak, hsamples]

/-- R169 for a buffer. -/
theorem normBuffer_normBuffer {t : Nat} (ht : t ≤ 32768) (b : PcmBuffer) :
    normBuffer t (normBuffer t b) = normBuffer t b := by
  by_cases hpeak : peak b.s = 0
  · rw [normBuffer_of_peak_eq_zero hpeak, normBuffer_of_peak_eq_zero hpeak]
  · have hscaled := isPeak_normBuffer ht hpeak
    rw [← normBuffer_res t b] at hscaled
    exact normBuffer_eq_self hscaled

/-! ## The statements about magnitudes -/

/-- `P[d]` after `NORM`: the flag is in another field. -/
theorem readP_writeP_raiseIf {s : State} {d : RegField} (hd : d.toNat < s.p.length) (c : Bool) (f : Flag)
    (b : PcmBuffer) : ((s.raiseIf c f).writeP d b).readP d = b :=
  State.readP_writeP_same _ d b hd

/-- Settles O36: the scaled peak bounds the samples, and full scale bounds the scaled peak. -/
theorem normNeverExceedsFullScale : Obligations.NormNeverExceedsFullScale := by
  unfold Obligations.NormNeverExceedsFullScale
  rintro d t s hready ⟨y, hy, hne⟩
  have hd := lt_p_length_of_ready hready (List.mem_cons_self ..)
  have ht : min t.toNat 32768 ≤ 32768 := min_le_right ..
  obtain ⟨hbound, -⟩ := isPeak_normBuffer ht (peak_ne_zero_of_mem hy hne)
  refine ⟨_, exec_norm d t s, fun x hx => ?_⟩
  rw [readP_writeP_raiseIf hd] at hx
  exact (hbound x hx).trans (scaledPeak_le_fullScale _ ht)

/-- The flag is up and the buffer written already: nothing changes (R33). -/
theorem raiseIf_writeP_of_same (s : State) (c : Bool) (f : Flag) (d : RegField) (b : PcmBuffer) :
    (((s.raiseIf c f).writeP d b).raiseIf c f).writeP d b = (s.raiseIf c f).writeP d b := by
  simp only [State.raiseIf, State.writeP, BitVec.or_assoc, BitVec.or_self, List.set_set]

/-- Settles O37: the second `NORM` raises the same flag and stores the same buffer. -/
theorem normIsIdempotent : Obligations.NormIsIdempotent := by
  unfold Obligations.NormIsIdempotent
  intro d t s hready
  have hd := lt_p_length_of_ready hready (List.mem_cons_self ..)
  refine ⟨_, exec_norm d t s, ?_⟩
  rw [exec_norm, readP_writeP_raiseIf hd, normBuffer_normBuffer (min_le_right ..), raiseIf_writeP_of_same]

/-! ## MORPH (R170 to R172) -/

theorem exec_morph_fraction_refused {num den : Imm} (h : den.toNat = 0 ∨ den.toNat < num.toNat) (d a b : RegField)
    (s : State) : exec (.morph d a b num den) s = .next (s.raise .oor) := if_pos h

section Fraction

variable {num den : Imm} (hden : den.toNat ≠ 0) (hle : num.toNat ≤ den.toNat) {a b : RegField} {s : State}
include hden hle

theorem exec_morph_layout_refused (h : (s.readP a).spc ≠ (s.readP b).spc ∨ (s.readP a).ch ≠ (s.readP b).ch)
    (d : RegField) : exec (.morph d a b num den) s = .next (s.raise .lay) :=
  (if_neg (not_or.mpr ⟨hden, not_lt.mpr hle⟩)).trans (if_pos h)

theorem exec_morph (hspc : (s.readP a).spc = (s.readP b).spc) (hch : (s.readP a).ch = (s.readP b).ch) (d : RegField) :
    exec (.morph d a b num den) s =
      .next (s.writeP d (morphBuffer (s.readP a) (s.readP b) num.toNat den.toNat)) :=
  (if_neg (not_or.mpr ⟨hden, not_lt.mpr hle⟩)).trans (if_neg (not_or.mpr ⟨not_not.mpr hspc, not_not.mpr hch⟩))

end Fraction

/-- Settles O39: the two refusing branches, in the order of R222. -/
theorem morphRefusalsWriteOnlyAFlag : Obligations.MorphRefusalsWriteOnlyAFlag := by
  unfold Obligations.MorphRefusalsWriteOnlyAFlag
  intro d a b num den s _
  exact ⟨fun hbad => exec_morph_fraction_refused hbad d a b s,
    fun hden hle hlayout => exec_morph_layout_refused hden hle hlayout d⟩

theorem samples_length_eq {p : Params} {a b : PcmBuffer} (ha : a.Wf p) (hb : b.Wf p) (hspc : a.spc = b.spc)
    (hch : a.ch = b.ch) : a.s.length = b.s.length := by
  rw [ha.1, hb.1, hspc, hch]

section MorphBuffer

variable {a b : PcmBuffer} (hlen : a.s.length = b.s.length) (num den : Nat)
include hlen

theorem morphBuffer_length : (morphBuffer a b num den).s.length = a.s.length := by
  rw [morphBuffer, List.length_zipWith, ← hlen, min_self]

theorem morphBuffer_getElem? {k : Nat} (hk : k < a.s.length) : (morphBuffer a b num den).s[k]? =
    some (wrap32 (lerp (a.s.getD k 0).toInt (b.s.getD k 0).toInt num den)) := by
  have hkb : k < b.s.length := hlen ▸ hk
  rw [morphBuffer, List.getElem?_zipWith, List.getElem?_eq_getElem hk, List.getElem?_eq_getElem hkb,
    List.getD_eq_getElem _ 0 hk, List.getD_eq_getElem _ 0 hkb]

end MorphBuffer

/-- Settles O38: sources of one layout have equally many samples, and each place holds its interpolation. -/
theorem morphInterpolatesEverySample : Obligations.MorphInterpolatesEverySample := by
  unfold Obligations.MorphInterpolatesEverySample
  rintro d a b num den s ⟨hwf, -⟩ hden hle hspc hch
  have hlen := samples_length_eq (State.readP_wf hwf a) (State.readP_wf hwf b) hspc hch
  exact ⟨assembleFields_toNat .., (morphBuffer (s.readP a) (s.readP b) num.toNat den.toNat).s,
    exec_morph hden hle hspc hch d, morphBuffer_length hlen .., fun k hk => morphBuffer_getElem? hlen _ _ hk⟩

/-! ## Between the sources (R170) -/

section Lerp

variable {num den : Nat} (hden : den ≠ 0)
include hden

theorem lerp_zero (a b : Int) : lerp a b 0 den = a := by
  rw [lerp, Nat.cast_zero, mul_zero, add_zero, Int.mul_tdiv_cancel a (Nat.cast_ne_zero.mpr hden)]

theorem lerp_den (a b : Int) : lerp a b den den = b := by
  rw [lerp, ← add_mul, add_sub_cancel, Int.mul_tdiv_cancel b (Nat.cast_ne_zero.mpr hden)]

theorem lerp_const (c : Int) : lerp c c num den = c := by
  rw [lerp, sub_self, zero_mul, add_zero, Int.mul_tdiv_cancel c (Nat.cast_ne_zero.mpr hden)]

variable (hle : num ≤ den)
include hle

/-- The weights `den - num` and `num` of the sources are not negative, and truncation keeps the order. -/
theorem lerp_mono {a b x y : Int} (ha : a ≤ x) (hb : b ≤ y) : lerp a b num den ≤ lerp x y num den := by
  have hweights (a b : Int) : a * den + (b - a) * num = a * (den - num : Nat) + b * num := by
    rw [Nat.cast_sub hle]
    ring
  have hsum : a * den + (b - a) * num ≤ x * den + (y - x) * num := by
    rw [hweights, hweights]
    gcongr
  exact Int.tdiv_le_tdiv (Nat.cast_pos.mpr (Nat.pos_of_ne_zero hden)) hsum

theorem min_le_lerp (a b : Int) : min a b ≤ lerp a b num den :=
  (lerp_const hden _).symm.trans_le (lerp_mono hden hle (min_le_left a b) (min_le_right a b))

theorem lerp_le_max (a b : Int) : lerp a b num den ≤ max a b :=
  (lerp_mono hden hle (le_max_left a b) (le_max_right a b)).trans_eq (lerp_const hden _)

/-- Between two samples there is no value that `wrap32` changes (R170). -/
theorem toInt_wrap32_lerp (x y : Sample) :
    (wrap32 (lerp x.toInt y.toInt num den)).toInt = lerp x.toInt y.toInt num den := by
  have hlo : min x.toInt y.toInt ≤ lerp x.toInt y.toInt num den := min_le_lerp hden hle ..
  have hhi : lerp x.toInt y.toInt num den ≤ max x.toInt y.toInt := lerp_le_max hden hle ..
  have hmin : -2 ^ 31 ≤ min x.toInt y.toInt := le_min x.le_toInt y.le_toInt
  have hmax : max x.toInt y.toInt < 2 ^ 31 := max_lt x.toInt_lt y.toInt_lt
  exact toInt_wrap32 (hmin.trans hlo) (hhi.trans_lt hmax)

end Lerp

section Ends

variable {a b : PcmBuffer} (hlen : a.s.length = b.s.length) {den : Nat} (hden : den ≠ 0)
include hlen hden

theorem morphBuffer_zero : morphBuffer a b 0 den = a := by
  have hsamples : (morphBuffer a b 0 den).s = a.s := by
    simp only [morphBuffer, lerp_zero hden, wrap32, BitVec.ofInt_toInt]
    rw [← List.map_uncurry_zip_eq_zipWith]
    exact List.map_fst_zip hlen.le
  calc morphBuffer a b 0 den = { a with s := (morphBuffer a b 0 den).s } := rfl
    _ = a := by rw [hsamples]

theorem morphBuffer_den : morphBuffer a b den den = { a with s := b.s } := by
  have hsamples : (morphBuffer a b den den).s = b.s := by
    simp only [morphBuffer, lerp_den hden, wrap32, BitVec.ofInt_toInt]
    rw [← List.map_uncurry_zip_eq_zipWith]
    exact List.map_snd_zip hlen.ge
  calc morphBuffer a b den den = { a with s := (morphBuffer a b den den).s } := rfl
    _ = { a with s := b.s } := by rw [hsamples]

end Ends

theorem morphBuffer_getD_toInt {a b : PcmBuffer} (hlen : a.s.length = b.s.length) {num den : Nat} (hden : den ≠ 0)
    (hle : num ≤ den) {k : Nat} (hk : k < a.s.length) : ((morphBuffer a b num den).s.getD k 0).toInt =
      lerp (a.s.getD k 0).toInt (b.s.getD k 0).toInt num den := by
  rw [List.getD_eq_getElem?_getD, morphBuffer_getElem? hlen _ _ hk, Option.getD_some, toInt_wrap32_lerp hden hle]

/-- Settles O40: what is stored is the interpolation itself, and the interpolation is monotone in its sources. -/
theorem morphStaysBetweenItsSources : Obligations.MorphStaysBetweenItsSources := by
  unfold Obligations.MorphStaysBetweenItsSources
  intro d a b num den s hready hden hle hspc hch
  have hd := lt_p_length_of_ready hready (List.mem_cons_self ..)
  have hlen := samples_length_eq (State.readP_wf hready.1 a) (State.readP_wf hready.1 b) hspc hch
  refine ⟨_, exec_morph hden hle hspc hch d, ?_⟩
  rw [State.readP_writeP_same _ _ _ hd]
  refine ⟨fun k hk => ?between, fun hzero => ?start, fun hend => ?ends⟩
  case between =>
    rw [morphBuffer_getD_toInt hlen hden hle hk]
    exact ⟨min_le_lerp hden hle .., lerp_le_max hden hle ..⟩
  case start => rw [hzero, morphBuffer_zero hlen hden]
  case ends => rw [hend, morphBuffer_den hlen hden]

end Sys2Proof.Machine
end

section
/-! The wavetable store and its gap fill (45_wavetable.md rules R180 to R189). `WTINS` stores the buffer that `RESIZE`
and `REQUANT` would write, cut to 16 bits. The loop of `WTFILL` keeps one invariant: up to its last set slot the table
is the closed one with every gap filled, and beyond it the table is as it was. -/

namespace Sys2Proof.Machine

open Sys2Proof.Closed

/-! ## WTCLR (R180) -/

theorem exec_wtclr (s : State) : exec .wtclr s = .next (s.setWt emptyTable) := rfl

/-- Settles O42: the table written is the empty one. -/
theorem wtclrEmptiesTheTable : Obligations.WtclrEmptiesTheTable := by
  unfold Obligations.WtclrEmptiesTheTable
  exact ⟨assembleFields_toNat .., exec_wtclr⟩

/-! ## WTINS (R181 to R183) -/

section Wtins

variable {slot : Imm} {a : RegField} {s : State}

theorem exec_wtins_slot_refused (h : 15 < slot.toNat) (a : RegField) (s : State) :
    exec (.wtins slot a) s = .next (s.raise .oor) := if_pos h

theorem exec_wtins_layout_refused (hslot : slot.toNat ≤ 15) (h : (s.readP a).ch ≠ .mono ∨ (s.readP a).spc < 2) :
    exec (.wtins slot a) s = .next (s.raise .lay) :=
  (if_neg (not_lt.mpr hslot)).trans (if_pos h)

theorem exec_wtins (hslot : slot.toNat ≤ 15) (hch : (s.readP a).ch = .mono) (hspc : 2 ≤ (s.readP a).spc) :
    exec (.wtins slot a) s = .next (s.setWt (putSlot s.wt slot.toNat (slotSamples (s.readP a)))) :=
  (if_neg (not_lt.mpr hslot)).trans (if_neg (not_or.mpr ⟨not_not.mpr hch, not_lt.mpr hspc⟩))

end Wtins

/-- Settles O44: the two refusing branches, in the order of R222. -/
theorem wtinsRefusalsWriteOnlyAFlag : Obligations.WtinsRefusalsWriteOnlyAFlag := by
  unfold Obligations.WtinsRefusalsWriteOnlyAFlag
  intro slot a s _
  exact ⟨fun hslot => exec_wtins_slot_refused hslot a s, exec_wtins_layout_refused⟩

/-- The low 16 bits of a stored 32-bit value are the value stored in 16 bits (R183). -/
theorem setWidth_16_ofInt_32 (v : Int) : (BitVec.ofInt 32 v).setWidth 16 = BitVec.ofInt 16 v := by
  apply BitVec.eq_of_toNat_eq
  rw [BitVec.toNat_setWidth, BitVec.toNat_ofInt, BitVec.toNat_ofInt]
  omega

/-- The samples of a slot by index: nearest index after the growth rounds, then `Q` to 16 bits (R181, R182). -/
theorem slotSamples_getElem? {b : PcmBuffer} (hch : b.ch = .mono) (hspc : 2 ≤ b.spc) {r i : Nat}
    (hr : LeastRounds b.spc 1024 r) (hi : i < 1024) :
    (slotSamples b)[i]? = some (BitVec.ofInt 16 (requantValue b.res.bits 16
      (grownAt (fun j => b.s.getD j 0) r (decimationIndex (grownSize b.spc r) 1024 i)).toInt)) := by
  have hmono : b.ch.count = 1 := congrArg Channels.count hch
  have hresize := resizeBuffer_getElem? hspc hr hi (c := 0) b.ch.count_pos
  simp only [hmono, mul_one, add_zero] at hresize
  have hres : (resizeBuffer 1024 b).res = b.res := rfl
  rw [slotSamples, requantBuffer, List.map_map, List.getElem?_map, hresize, Option.map_some, Function.comp_apply,
    requantSample_eq_requantValue, setWidth_16_ofInt_32, hres]
  rfl

/-- Settles O43: the slot written, by index. -/
theorem wtinsStoresTheConvertedSamples : Obligations.WtinsStoresTheConvertedSamples := by
  unfold Obligations.WtinsStoresTheConvertedSamples
  intro slot a s _ hslot hch hspc
  have hlen := (s.readP a).channel_length 0
  obtain ⟨r, hr, -⟩ := exists_leastRounds_growTo_eq (hlen.symm ▸ hspc) 1024
  rw [hlen] at hr
  exact ⟨assembleFields_toNat .., r, slotSamples (s.readP a), hr, exec_wtins hslot hch hspc,
    slotSamples_length hch, fun i hi => slotSamples_getElem? hch hspc hr hi⟩

/-- `RESIZE` of a buffer just written, within the cap: it is written over. -/
theorem exec_resize_writeP {s : State} {e : RegField} (he : e.toNat < s.p.length) {b : PcmBuffer} (hspc : 2 ≤ b.spc)
    {n : Imm} (hn : n.toNat ≤ sizeCap s.cfg b) :
    exec (.resize e n) (s.writeP e b) = .next (s.writeP e (resizeBuffer n.toNat b)) := by
  have hread : (s.writeP e b).readP e = b := State.readP_writeP_same s e b he
  rw [exec_resize_of_le_cap (by rwa [hread]) (by rwa [hread, State.writeP_cfg]), hread]
  simp only [State.writeP, List.set_set]

/-- `REQUANT` of a buffer just written: it is written over. -/
theorem exec_requant_writeP {s : State} {e : RegField} (he : e.toNat < s.p.length) (b : PcmBuffer) {res : Imm}
    {new : Resolution} (hnew : new.bits = res.toNat) :
    exec (.requant e res) (s.writeP e b) = .next (s.writeP e (requantBuffer new b)) := by
  rw [exec_requant hnew, State.readP_writeP_same s e b he]
  simp only [State.writeP, List.set_set]

/-- Settles O45: the three commands write `P[e]` over and over, the last time with the buffer `WTINS` cuts. -/
theorem wtinsIsCloneResizeRequant : Obligations.WtinsIsCloneResizeRequant := by
  unfold Obligations.WtinsIsCloneResizeRequant
  intro slot a e s _ hclone hslot hch hspc
  have he : e.toNat < s.p.length := lt_p_length_of_ready hclone (List.mem_cons_self ..)
  have hcap : (1024 : Imm).toNat ≤ sizeCap s.cfg (s.readP a) := by
    rw [sizeCap, hch, Channels.count, Nat.div_one]
    exact hclone.1.legal.2.1.1
  refine ⟨_, _, _, exec_pclone e a s, exec_resize_writeP he hspc hcap, exec_requant_writeP he _ (new := .r16) rfl, ?_⟩
  rw [exec_wtins hslot hch hspc, State.readP_writeP_same _ _ _ he]
  rfl

/-! ## WTFILL (R185, R188) -/

theorem exec_wtfill {s : State} (h : (slotAt s.wt 0).set = true) :
    exec .wtfill s = .next (s.setWt (fillTable s.wt)) := if_pos h

theorem exec_wtfill_unset {s : State} (h : (slotAt s.wt 0).set = false) : exec .wtfill s = .next (s.raise .inc) :=
  if_neg (Bool.eq_false_iff.mp h)

/-- Settles O47: the refusing branch. -/
theorem wtfillNeedsSlotZero : Obligations.WtfillNeedsSlotZero := by
  unfold Obligations.WtfillNeedsSlotZero
  intro s _ hunset
  exact exec_wtfill_unset hunset

/-! ## Slots of a table -/

theorem Slot.eq_mk_of_set {x : Slot} (h : x.set = true) : { set := true, samples := x.samples } = x := by
  rw [← h]

theorem table_ext {t u : List Slot} (ht : t.length = 16) (hu : u.length = 16)
    (h : ∀ k < 16, slotAt t k = slotAt u k) : t = u := by
  refine List.ext_getElem (ht.trans hu.symm) fun k hkt hku => ?_
  have hslot := h k (ht ▸ hkt)
  rwa [slotAt, slotAt, List.getD_eq_getElem _ _ hkt, List.getD_eq_getElem _ _ hku] at hslot

theorem slotAt_replicate (x : Slot) {n k : Nat} (hk : k < n) : slotAt (List.replicate n x) k = x :=
  List.getD_replicate _ hk

/-- The closed table by slot: slot 15 becomes slot 0 when it was unset (R185, R187). -/
theorem slotAt_closeTable {t : List Slot} (ht : t.length = 16) (h0 : (slotAt t 0).set = true) (k : Nat) :
    slotAt (closeTable t) k = if k = 15 ∧ (slotAt t 15).set = false then slotAt t 0 else slotAt t k := by
  rw [closeTable]
  split
  case isTrue hset => rw [if_neg fun h => Bool.false_ne_true (h.2.symm.trans hset)]
  case isFalse hunset =>
    rw [Bool.not_eq_true] at hunset
    by_cases hk : k = 15
    · subst hk
      rw [if_pos ⟨rfl, hunset⟩, slotAt_putSlot_same (by omega), Slot.eq_mk_of_set h0]
    · rw [if_neg fun h => hk h.1, slotAt_putSlot_other (Ne.symm hk)]

section Close

variable {t : List Slot} (ht : t.length = 16) (h0 : (slotAt t 0).set = true)
include ht h0

theorem slotAt_closeTable_of_lt {k : Nat} (hk : k < 15) : slotAt (closeTable t) k = slotAt t k := by
  rw [slotAt_closeTable ht h0, if_neg fun h => hk.ne h.1]

theorem slotAt_closeTable_of_set {k : Nat} (hk : (slotAt t k).set = true) : slotAt (closeTable t) k = slotAt t k := by
  rw [slotAt_closeTable ht h0, if_neg]
  rintro ⟨rfl, hunset⟩
  exact Bool.false_ne_true (hunset.symm.trans hk)

theorem slotAt_closeTable_last (h15 : (slotAt t 15).set = false) : slotAt (closeTable t) 15 = slotAt t 0 := by
  rw [slotAt_closeTable ht h0, if_pos ⟨rfl, h15⟩]

theorem closeTable_last_set : (slotAt (closeTable t) 15).set = true := by
  rw [slotAt_closeTable ht h0]
  split
  case isTrue => exact h0
  case isFalse h => exact eq_true_of_ne_false fun hunset => h ⟨rfl, hunset⟩

end Close

/-! ## Gaps (R185, R186) -/

/-- `lo` and `hi` are neighbouring set slots. -/
structure IsGap (t : List Slot) (lo hi : Nat) : Prop where
  lt : lo < hi
  lo_set : (slotAt t lo).set = true
  hi_set : (slotAt t hi).set = true
  unset : ∀ m, lo < m → m < hi → (slotAt t m).set = false

/-- The slot the fill puts between two bounds. -/
def gapSlot (t : List Slot) (lo hi k : Nat) : Slot :=
  { set := true, samples := interpSamples (slotAt t lo).samples (slotAt t hi).samples (k - lo) (hi - lo) }

theorem IsGap.not_set {t : List Slot} {lo hi m : Nat} (h : IsGap t lo hi) (hm : (slotAt t m).set = true) :
    m ≤ lo ∨ hi ≤ m := by
  by_contra hbetween
  push Not at hbetween
  exact Bool.false_ne_true ((h.unset m hbetween.1 hbetween.2).symm.trans hm)

/-- A gap that ends within another is that gap. -/
theorem IsGap.unique {t : List Slot} {lo hi lo' hi' : Nat} (h : IsGap t lo hi) (h' : IsGap t lo' hi') (hlo : lo < hi')
    (hhi : hi' ≤ hi) : lo' = lo ∧ hi' = hi := by
  have hends : hi' = hi := by have := h.not_set h'.hi_set; omega
  have hbelow : lo' ≤ lo := by have := h.not_set h'.lo_set; have := h'.lt; omega
  have habove : lo ≤ lo' := by have := h'.not_set h.lo_set; omega
  exact ⟨hbelow.antisymm habove, hends⟩

/-! ## The invariant of the fill -/

/-- `u` is the table `t` with every gap up to slot `n` filled. -/
structure FilledUpTo (t : List Slot) (n : Nat) (u : List Slot) : Prop where
  shape : TableShape u
  set : ∀ k ≤ n, (slotAt u k).set = true
  kept : ∀ k, (slotAt t k).set = true ∨ n < k → slotAt u k = slotAt t k
  filled : ∀ lo hi k, IsGap t lo hi → hi ≤ n → lo < k → k < hi → slotAt u k = gapSlot t lo hi k

theorem FilledUpTo.zero {t : List Slot} (ht : TableShape t) (h0 : (slotAt t 0).set = true) : FilledUpTo t 0 t where
  shape := ht
  set _ hk := Nat.le_zero.mp hk ▸ h0
  kept _ _ := rfl
  filled _ _ k _ hhi _ hk := absurd (hk.trans_le hhi) (Nat.not_lt_zero k)

/-- One run fills the gap that begins where the filled part ends. -/
theorem FilledUpTo.fillRun {t u : List Slot} {lo hi : Nat} (h : FilledUpTo t lo u) (hgap : IsGap t lo hi) (hhi : hi < 16) :
    FilledUpTo t hi (fillRun lo hi u) := by
  have hslot (k : Nat) : slotAt (Machine.fillRun lo hi u) k = if lo < k ∧ k < hi then gapSlot t lo hi k else slotAt u k := by
    rw [slotAt_fillRun h.shape hgap.lt hhi, h.kept lo (.inl hgap.lo_set), h.kept hi (.inl hgap.hi_set), gapSlot]
  refine ⟨h.shape.fillRun lo hi, fun k hk => ?set, fun k hk => ?kept, fun lo' hi' k hgap' hhi' hlo hk => ?filled⟩
  case set =>
    rw [hslot]
    split
    case isTrue => rfl
    case isFalse hout =>
      rcases le_or_gt k lo with hbelow | habove
      · exact h.set k hbelow
      · obtain rfl : k = hi := by omega
        rw [h.kept k (.inl hgap.hi_set), hgap.hi_set]
  case kept =>
    have hout : ¬ (lo < k ∧ k < hi) := by have := hk.imp_left hgap.not_set; omega
    have := hgap.lt
    rw [hslot, if_neg hout, h.kept k (hk.imp_right (by omega))]
  case filled =>
    rcases le_or_gt hi' lo with hold | hnew
    · rw [hslot, if_neg (by omega), h.filled lo' hi' k hgap' hold hlo hk]
    · obtain ⟨rfl, rfl⟩ := hgap.unique hgap' hnew hhi'
      rw [hslot, if_pos ⟨hlo, hk⟩]

/-- `lo` is the last set slot at or below `n`. -/
structure IsLastSet (t : List Slot) (n lo : Nat) : Prop where
  le : lo ≤ n
  set : (slotAt t lo).set = true
  unset : ∀ m, lo < m → m ≤ n → (slotAt t m).set = false

/-- What the loop over `hi` keeps: its `lo` is the last set slot so far, and the table is filled up to it. -/
def FillInvariant (t : List Slot) (n : Nat) (st : Nat × List Slot) : Prop :=
  IsLastSet t n st.1 ∧ FilledUpTo t st.1 st.2

theorem FillInvariant.fillStep {t : List Slot} {n : Nat} {st : Nat × List Slot} (h : FillInvariant t n st)
    (hn : n + 1 < 16) : FillInvariant t (n + 1) (fillStep st (n + 1)) := by
  obtain ⟨hlast, hfilled⟩ := h
  have hnext : slotAt st.2 (n + 1) = slotAt t (n + 1) := hfilled.kept _ (.inr (Nat.lt_succ_of_le hlast.le))
  rw [Machine.fillStep, hnext]
  split
  case isTrue hset =>
    have hgap : IsGap t st.1 (n + 1) := ⟨Nat.lt_succ_of_le hlast.le, hlast.set, hset,
      fun m hlo hm => hlast.unset m hlo (Nat.le_of_lt_succ hm)⟩
    exact ⟨⟨le_rfl, hset, fun m hlo hm => absurd hlo (not_lt.mpr hm)⟩, hfilled.fillRun hgap hn⟩
  case isFalse hunset =>
    rw [Bool.not_eq_true] at hunset
    refine ⟨⟨Nat.le_succ_of_le hlast.le, hlast.set, fun m hlo hm => ?_⟩, hfilled⟩
    rcases Nat.le_succ_iff.mp hm with hm | rfl
    · exact hlast.unset m hlo hm
    · exact hunset

theorem fillInvariant_foldl {t : List Slot} (ht : TableShape t) (h0 : (slotAt t 0).set = true) {n : Nat} (hn : n < 16) :
    FillInvariant t n ((List.range' 1 n).foldl fillStep (0, t)) := by
  induction n with
  | zero => exact ⟨⟨le_rfl, h0, fun m hlo hm => absurd hlo (not_lt.mpr hm)⟩, FilledUpTo.zero ht h0⟩
  | succ n ih =>
    rw [List.range'_1_concat, List.foldl_append, Nat.add_comm 1 n]
    exact (ih (Nat.lt_of_succ_lt hn)).fillStep hn

section FillTable

variable {t : List Slot} (ht : TableShape t) (h0 : (slotAt t 0).set = true)
include ht h0

/-- `WTFILL` fills every gap of the closed table: slot 15 is set, so the loop ends with nothing left to fill. -/
theorem filledUpTo_fillTable : FilledUpTo (closeTable t) 15 (fillTable t) := by
  have hstart : (slotAt (closeTable t) 0).set = true := slotAt_closeTable_of_set ht.1 h0 h0 ▸ h0
  obtain ⟨hlast, hfilled⟩ := fillInvariant_foldl ht.closeTable hstart (n := 15) (by decide)
  have hend := hlast.unset 15
  rw [closeTable_last_set ht.1 h0] at hend
  have hall : ((List.range' 1 15).foldl fillStep (0, closeTable t)).1 = 15 :=
    hlast.le.antisymm (not_lt.mp fun hlo => Bool.false_ne_true (hend hlo le_rfl).symm)
  rwa [hall] at hfilled

theorem fillTable_set {k : Nat} (hk : k < 16) : (slotAt (fillTable t) k).set = true :=
  (filledUpTo_fillTable ht h0).set k (Nat.le_of_lt_succ hk)

theorem fillTable_kept {k : Nat} (hk : (slotAt t k).set = true) : slotAt (fillTable t) k = slotAt t k := by
  have hclosed := slotAt_closeTable_of_set ht.1 h0 hk
  rw [(filledUpTo_fillTable ht h0).kept k (.inl (hclosed ▸ hk)), hclosed]

theorem fillTable_last (h15 : (slotAt t 15).set = false) : slotAt (fillTable t) 15 = slotAt t 0 := by
  rw [(filledUpTo_fillTable ht h0).kept 15 (.inl (closeTable_last_set ht.1 h0)), slotAt_closeTable_last ht.1 h0 h15]

/-- Two neighbouring bounds in the sense of R187, slot 15 being one whether it was set or not, bound a gap of the closed
table. -/
theorem isGap_closeTable {lo hi : Nat} (hlt : lo < hi) (hhi : hi ≤ 15) (hlo : (slotAt t lo).set = true)
    (hbound : (slotAt t hi).set = true ∨ hi = 15) (hunset : ∀ m, lo < m → m < hi → (slotAt t m).set = false) :
    IsGap (closeTable t) lo hi where
  lt := hlt
  lo_set := slotAt_closeTable_of_set ht.1 h0 hlo ▸ hlo
  hi_set := by
    rcases hbound with hset | rfl
    · rwa [slotAt_closeTable_of_set ht.1 h0 hset]
    · exact closeTable_last_set ht.1 h0
  unset m hlom hmhi := slotAt_closeTable_of_lt ht.1 h0 (hmhi.trans_le hhi) ▸ hunset m hlom hmhi

/-- A slot within a gap holds the interpolation of the bounds it is left between. -/
theorem fillTable_filled {lo hi k : Nat} (hgap : IsGap (closeTable t) lo hi) (hhi : hi ≤ 15) (hlo : lo < k) (hk : k < hi) :
    slotAt (fillTable t) k = gapSlot (fillTable t) lo hi k := by
  have h := filledUpTo_fillTable ht h0
  rw [h.filled lo hi k hgap hhi hlo hk, gapSlot, gapSlot, h.kept lo (.inl hgap.lo_set), h.kept hi (.inl hgap.hi_set)]

end FillTable

theorem fillTable_of_all_set {t : List Slot} (ht : TableShape t) (h : ∀ k < 16, (slotAt t k).set = true) :
    fillTable t = t :=
  table_ext ht.fillTable.1 ht.1 fun k hk => fillTable_kept ht (h 0 (by decide)) (h k hk)

theorem gapSlot_samples_getElem? {t : List Slot} (ht : TableShape t) (lo hi k : Nat) {i : Nat} (hplace : i < 1024) :
    (gapSlot t lo hi k).samples[i]? = some (interpOf ((slotAt t lo).samples.getD i 0) ((slotAt t hi).samples.getD i 0)
      (k - lo) (hi - lo)) := by
  have hlo := slotAt_samples_length ht.2 lo
  have hhi := slotAt_samples_length ht.2 hi
  have hlt : i < (gapSlot t lo hi k).samples.length := (interpSamples_length hlo hhi _ _).symm ▸ hplace
  rw [List.getElem?_eq_getElem hlt, ← List.getD_eq_getElem _ 0]
  exact congrArg some (interpSamples_getD _ _ (hlo.symm ▸ hplace) (hhi.symm ▸ hplace))

/-- Settles O46: the clauses are what the fill keeps, closes and interpolates. -/
theorem wtfillInterpolatesEveryGap : Obligations.WtfillInterpolatesEveryGap := by
  unfold Obligations.WtfillInterpolatesEveryGap
  intro s hwf h0
  have ht := hwf.tableShape
  refine ⟨assembleFields_toNat .., fillTable s.wt, exec_wtfill h0, ht.fillTable.1, fun k hk => ⟨fillTable_set ht h0 hk,
    slotAt_samples_length ht.fillTable.2 k⟩, fun k _ hset => fillTable_kept ht h0 hset, fillTable_last ht h0, ?gaps⟩
  case gaps =>
    intro lo j hi hlo hj hhi hset hbound hunset i hplace
    rw [fillTable_filled ht h0 (isGap_closeTable ht h0 (hlo.trans hj) hhi hset hbound hunset) hhi hlo hj]
    exact gapSlot_samples_getElem? ht.fillTable lo hi j hplace

/-- After a `WTFILL` that runs, every slot is set. -/
theorem slotAt_setWt_fillTable_set {s : State} (hwf : s.Wf) (h0 : (slotAt s.wt 0).set = true) {k : Nat} (hk : k < 16) :
    (slotAt (s.setWt (fillTable s.wt)).wt k).set = true := by
  rw [State.setWt_wt]
  exact fillTable_set hwf.tableShape h0 hk

theorem exec_wtfill_of_all_set {s : State} (hwf : s.Wf) (h : ∀ k < 16, (slotAt s.wt k).set = true) :
    exec .wtfill s = .next s := by
  rw [exec_wtfill (h 0 (by decide)), fillTable_of_all_set hwf.tableShape h]
  rfl

/-- Settles O48: the two branches, by slot 0. -/
theorem wtfillIsAllOrNothing : Obligations.WtfillIsAllOrNothing := by
  unfold Obligations.WtfillIsAllOrNothing
  intro s hwf
  cases h0 : (slotAt s.wt 0).set with
  | true => exact ⟨_, exec_wtfill h0, .inl fun _ => slotAt_setWt_fillTable_set hwf h0⟩
  | false =>
    have hinc : (s.raise .inc).status.getLsbD 5 = true := by
      rw [State.raise_getLsbD]
      exact Bool.or_true _
    exact ⟨_, exec_wtfill_unset h0, .inr ⟨State.raise_wt s .inc, hinc⟩⟩

theorem State.raise_raise (s : State) (f : Flag) : (s.raise f).raise f = s.raise f := by
  simp only [State.raise, BitVec.or_assoc, BitVec.or_self]

/-- Settles O49: the second run finds every slot set, or slot 0 unset and `INC` set as before. -/
theorem wtfillTwiceIsOnce : Obligations.WtfillTwiceIsOnce := by
  unfold Obligations.WtfillTwiceIsOnce
  intro s hwf
  cases h0 : (slotAt s.wt 0).set with
  | true =>
    exact ⟨_, exec_wtfill h0, exec_wtfill_of_all_set (hwf.setWt_of_tableShape hwf.tableShape.fillTable)
      fun _ => slotAt_setWt_fillTable_set hwf h0⟩
  | false =>
    refine ⟨_, exec_wtfill_unset h0, ?_⟩
    rw [exec_wtfill_unset (s := s.raise .inc) h0, State.raise_raise]

/-- Between two equal bounds the interpolation is the bound (R189). -/
theorem interpSamples_self (w : List Sample16) (p : Nat) {q : Nat} (hq : q ≠ 0) : interpSamples w w p q = w := by
  simp only [interpSamples, List.zipWith_self, lerp_const hq, BitVec.ofInt_toInt, List.map_id']

theorem fillTable_of_slot_zero_alone {t : List Slot} (ht : TableShape t) (h0 : (slotAt t 0).set = true)
    (hunset : ∀ k, 1 ≤ k → k ≤ 15 → (slotAt t k).set = false) : fillTable t = List.replicate 16 (slotAt t 0) := by
  refine table_ext ht.fillTable.1 List.length_replicate fun k hk => ?_
  have hfirst := fillTable_kept ht h0 h0
  have hlast := fillTable_last ht h0 (hunset 15 (by decide) le_rfl)
  rw [slotAt_replicate _ hk]
  rcases Nat.eq_zero_or_pos k with rfl | hpos
  · exact hfirst
  rcases (Nat.le_of_lt_succ hk).eq_or_lt with rfl | hbelow
  · exact hlast
  · have hgap := isGap_closeTable ht h0 (hpos.trans hbelow) le_rfl h0 (.inr rfl)
      fun m hm hm' => hunset m hm hm'.le
    rw [fillTable_filled ht h0 hgap le_rfl hpos hbelow, gapSlot, hfirst, hlast, interpSamples_self _ _ (by decide),
      Slot.eq_mk_of_set h0]

/-- Settles O50: slots 0 and 15 bound the one gap, and both are slot 0. -/
theorem wtfillFromSlotZeroAloneCopiesIt : Obligations.WtfillFromSlotZeroAloneCopiesIt := by
  unfold Obligations.WtfillFromSlotZeroAloneCopiesIt
  intro s hwf h0 hunset
  rw [exec_wtfill h0, fillTable_of_slot_zero_alone hwf.tableShape h0 hunset]
  rfl

end Sys2Proof.Machine
end

section
/-! The serialiser and its checksum (45_wavetable.md rules R190 to R196): a slot is four groups of copies of one level, so
every sample of the stream is found by its group, its copy and its place; the checksum is a sum over the stream. -/

namespace Sys2Proof.Machine

open Sys2Proof.Closed

/-! ## The stream by groups of levels (R190, R191) -/

/-- `c` copies of one level. -/
def levelCopies (w : List Sample16) (c n : Nat) : List Sample16 := (List.range c).flatMap fun _ => level w n

theorem levelCopies_length (w : List Sample16) (c n : Nat) : (levelCopies w c n).length = c * n := by
  simp [levelCopies, List.length_flatMap]

theorem levelCopies_getD (w : List Sample16) {c n j i : Nat} (hj : j < c) (hi : i < n) :
    (levelCopies w c n).getD (n * j + i) 0 = w.getD (1024 / n * i) 0 := by
  rw [levelCopies, mul_comm n, getD_flatMap_blocks c n _ (fun _ _ => level_length w n) j i hj hi, level_getD w hi,
    mul_comm i]

theorem instances_eq_levelCopies (w : List Sample16) :
    instances w = levelCopies w 1 1024 ++ levelCopies w 1 512 ++ levelCopies w 2 256 ++ levelCopies w 8 128 := by
  have hcopies (c n : Nat) : levelCopies w c n = (List.replicate c (level w n)).flatten := by
    rw [levelCopies, List.flatMap_def, List.map_const', List.length_range]
  simp [hcopies, instances, List.replicate_succ]

/-- The part of a concatenation after `n` elements. -/
theorem getD_append_add {α : Type} {x : List α} {n : Nat} (hx : x.length = n) (y : List α) (i : Nat) (d : α) :
    (x ++ y).getD (n + i) d = y.getD i d := by
  rw [List.getD_append_right _ _ _ _ (hx ▸ Nat.le_add_right ..), hx, Nat.add_sub_cancel_left]

section Groups

variable (w : List Sample16) {c i : Nat}

theorem instances_getD_full (hi : i < 1024) : (instances w).getD i 0 = w.getD i 0 := by
  have hcopy := levelCopies_getD w (j := 0) Nat.one_pos hi
  simp only [mul_zero, zero_add, Nat.reduceDiv, one_mul] at hcopy
  rw [instances_eq_levelCopies, List.append_assoc, List.append_assoc,
    List.getD_append _ _ _ _ (by rwa [levelCopies_length, one_mul]), hcopy]

theorem instances_getD_half (hi : i < 512) : (instances w).getD (1024 + i) 0 = w.getD (2 * i) 0 := by
  have hcopy := levelCopies_getD w (j := 0) Nat.one_pos hi
  simp only [mul_zero, zero_add, Nat.reduceDiv] at hcopy
  rw [instances_eq_levelCopies, List.append_assoc, List.append_assoc, getD_append_add (levelCopies_length w 1 1024),
    List.getD_append _ _ _ _ (by rwa [levelCopies_length, one_mul]), hcopy]

theorem instances_getD_quarter (hc : c < 2) (hi : i < 256) :
    (instances w).getD (1536 + (256 * c + i)) 0 = w.getD (4 * i) 0 := by
  have hhead : (levelCopies w 1 1024 ++ levelCopies w 1 512).length = 1536 := by
    rw [List.length_append, levelCopies_length, levelCopies_length]
  rw [instances_eq_levelCopies, List.append_assoc, getD_append_add hhead,
    List.getD_append _ _ _ _ (by rw [levelCopies_length]; omega), levelCopies_getD w hc hi]

theorem instances_getD_eighth (hc : c < 8) (hi : i < 128) :
    (instances w).getD (2048 + (128 * c + i)) 0 = w.getD (8 * i) 0 := by
  have hhead : (levelCopies w 1 1024 ++ levelCopies w 1 512 ++ levelCopies w 2 256).length = 2048 := by
    rw [List.length_append, List.length_append, levelCopies_length, levelCopies_length, levelCopies_length]
  rw [instances_eq_levelCopies, getD_append_add hhead, levelCopies_getD w hc hi]

end Groups

/-! ## The payload (R192, R194) -/

theorem tableSamples_getD (t : List Slot) {k j : Nat} (hk : k < 16) (hj : j < 3072) :
    (tableSamples t).getD (3072 * k + j) 0 = (instances (slotAt t k).samples).getD j 0 := by
  rw [mul_comm]
  exact getD_flatMap_blocks 16 3072 _ (fun _ _ => instances_length _) k j hk hj 0

/-- Sample `j` of the 3072 of slot `k`, at byte place `p`. -/
theorem sampleAt_payload (t : List Slot) {k j p : Nat} (hk : k < 16) (hj : j < 3072) (hp : p = 6144 * k + 2 * j)
    {x : Sample16} (hx : (instances (slotAt t k).samples).getD j 0 = x) : SampleAt (payload t) p x := by
  have hplace : p = 2 * (3072 * k + j) := by omega
  have hlt : 3072 * k + j < (tableSamples t).length := by
    rw [tableSamples_length]
    omega
  rw [hplace, ← hx, ← tableSamples_getD t hk hj]
  exact sampleAt_flatMap_sampleBytes hlt

/-! ## The checksum (R193) -/

theorem swapped_toNat (x : Sample16) : (swapped x).toNat = 256 * (lowByte x).toNat + (highByte x).toNat := by
  rw [swapped, append_toNat_eq_add, mul_comm]
  rfl

theorem checksum_foldl_toNat (x : List Sample16) (c : BitVec 16) :
    (x.foldl (fun ck y => ck + swapped y) c).toNat = (c.toNat + (x.map fun y => (swapped y).toNat).sum) % 65536 := by
  induction x generalizing c with
  | nil => exact (Nat.mod_eq_of_lt c.isLt).symm
  | cons a x ih =>
    rw [List.foldl_cons, ih, BitVec.toNat_add, List.map_cons, List.sum_cons, Nat.mod_add_mod, add_assoc]

theorem checksum_toNat (x : List Sample16) :
    (checksum x).toNat = (x.map fun y => (swapped y).toNat).sum % 65536 := by
  rw [checksum, checksum_foldl_toNat, BitVec.ofNat_eq_ofNat, BitVec.toNat_ofNat, Nat.zero_mod, zero_add]

/-- The swapped samples of a stream, read off its bytes pair by pair. -/
theorem map_swapped_toNat_eq (x : List Sample16) :
    (x.map fun y => (swapped y).toNat) = (List.range x.length).map fun m =>
      256 * ((x.flatMap sampleBytes).getD (2 * m + 1) 0).toNat + ((x.flatMap sampleBytes).getD (2 * m) 0).toNat := by
  refine List.ext_getElem (by simp) fun m hm _ => ?_
  have hlt : m < x.length := by rwa [List.length_map] at hm
  obtain ⟨hhigh, hlow⟩ := flatMap_sampleBytes_getD x m hlt
  rw [List.getElem_map, List.getElem_map, List.getElem_range, hhigh, hlow, List.getD_eq_getElem _ _ hlt, swapped_toNat]

theorem tableChecksum_toNat (t : List Slot) :
    (tableChecksum t).toNat = ((List.range 49152).map fun m =>
      256 * ((payload t).getD (2 * m + 1) 0).toNat + ((payload t).getD (2 * m) 0).toNat).sum % 65536 := by
  rw [tableChecksum, checksum_toNat, map_swapped_toNat_eq, tableSamples_length, payload]

/-! ## `WTSER` (R194 to R196) -/

/-- `WTSER` stores the payload whole: it is within the least `VCAP` (R7, R195). -/
theorem exec_wtser_of_wf {s : State} (h : s.Wf) (d : RegField) :
    exec (.wtser d) s = .next { s with
      v := s.v.set d.toNat (payload s.wt)
      ck := tableChecksum s.wt
      status := s.status ||| (if ∀ k ∈ s.wt, k.set = true then 0#32 else 0x20#32) } := by
  have hvcap : 112348 ≤ s.cfg.vcap := h.legal.1.1
  have hfits : (payload s.wt).length ≤
      ((s.raiseIf (anyUnset s.wt) .inc).setCk (tableChecksum s.wt)).cfg.vcap := by
    rw [payload_length, State.setCk_cfg, State.raiseIf_cfg]
    omega
  rw [exec_wtser, State.storeV_eq_of_fits hfits, ← incBits_eq h.wt_length, State.setCk, State.raiseIf]

/-- Settles O51: every place of the payload by its group of levels, and the checksum as the sum over its bytes. -/
theorem wtserStoresAllLevelsAndTheChecksum : Obligations.WtserStoresAllLevelsAndTheChecksum := by
  unfold Obligations.WtserStoresAllLevelsAndTheChecksum
  rintro d s ⟨hwf, -⟩
  refine ⟨assembleFields_toNat .., payload s.wt, tableChecksum s.wt, exec_wtser_of_wf hwf d, payload_length s.wt,
    fun k hk => ⟨fun i hi => ?full, fun i hi => ?half, fun c hc i hi => ?quarter, fun c hc i hi => ?eighth⟩,
    tableChecksum_toNat s.wt⟩
  case full => exact sampleAt_payload _ hk (by omega) rfl (instances_getD_full _ hi)
  case half => exact sampleAt_payload _ hk (by omega) (by ring) (instances_getD_half _ hi)
  case quarter => exact sampleAt_payload _ hk (by omega) (by ring) (instances_getD_quarter _ hc hi)
  case eighth => exact sampleAt_payload _ hk (by omega) (by ring) (instances_getD_eighth _ hc hi)

end Sys2Proof.Machine
end

section
/-! The system commands (46_system.md rules R210 and R211): the word 0 is the only one with opcode 0 that decodes, and
`CLRST` acts on the seven flag bits of STATUS, the others being 0. -/

namespace Sys2Proof.Machine

open Sys2Proof.Closed

/-! ## `NOP` (R210) -/

theorem exec_nop (s : State) : exec .nop s = .next s := rfl

/-- Opcode 0 has format `F0`, which uses no field: every other bit of a word that decodes is 0. -/
theorem eq_zero_of_decode_of_opcode_zero {c : Params} {w : Word} {i : Instr} (h : decode c w = .ok i)
    (hop : w.toNat / 2 ^ 56 = 0) : w = 0 := by
  obtain ⟨f, hf, hw⟩ := formatOfOpcode_of_decode h
  rw [hop] at hf hw
  obtain rfl : Format.f0 = f := Option.some.inj hf
  exact BitVec.and_allOnes.symm.trans hw

theorem decode_eq_ok_nop_iff (c : Params) (w : Word) : decode c w = .ok .nop ↔ w = 0 :=
  ⟨fun h => (encode_of_decode h).1.symm, fun h => decode_eq_ok_of_encode h.symm rfl⟩

/-- Settles O17: the one word with opcode 0 that decodes is the encoder's word of `NOP`. -/
theorem nopChangesNothing : Obligations.NopChangesNothing := by
  unfold Obligations.NopChangesNothing
  refine ⟨exec_nop, decode_eq_ok_nop_iff, fun c w hop hne => ?_⟩
  exact decode_eq_error_of_ne_ok fun _ h => hne (eq_zero_of_decode_of_opcode_zero h hop)

/-! ## `CLRST` (R211) -/

theorem exec_clrst (m : Imm) (s : State) : exec (.clrst m) s = .next (s.clearFlags m) := rfl

/-- STATUS has seven flags; its other bits are 0 (R32). -/
theorem State.Wf.status_getLsbD_eq_false {s : State} (h : s.Wf) {k : Nat} (hk : 7 ≤ k) :
    s.status.getLsbD k = false :=
  Nat.testBit_lt_two_pow (h.status_lt.trans_le (Nat.pow_le_pow_right Nat.two_pos hk))

theorem State.clearFlags_status_getLsbD (s : State) (m : Imm) {k : Nat} (hk : k < 32) :
    (s.clearFlags m).status.getLsbD k = (s.status.getLsbD k && !m.getLsbD k) := by
  simp [hk]

/-- The mask bits above the flags meet only zeros of STATUS. -/
theorem State.Wf.clearFlags_status_eq_low {s : State} (h : s.Wf) (m : Imm) :
    (s.clearFlags m).status = (s.clearFlags (m &&& 0x7F#22)).status := by
  refine BitVec.eq_of_getLsbD_eq fun k hk => ?_
  rw [State.clearFlags_status_getLsbD s _ hk, State.clearFlags_status_getLsbD s _ hk, BitVec.getLsbD_and]
  rcases lt_or_ge k 7 with hflag | hzero
  · have hbit : (0x7F#22).getLsbD k = true := by
      revert k
      decide
    rw [hbit, Bool.and_true]
  · rw [h.status_getLsbD_eq_false hzero, Bool.false_and, Bool.false_and]

/-- Settles O18: a bit of STATUS is a flag, where the mask decides, or 0. -/
theorem clrstClearsTheFlagsOfItsMask : Obligations.ClrstClearsTheFlagsOfItsMask := by
  unfold Obligations.ClrstClearsTheFlagsOfItsMask
  intro m s hwf
  exact ⟨assembleFields_toNat .., _, exec_clrst m s, fun k hk => s.clearFlags_status_getLsbD m hk,
    hwf.clearFlags_status_eq_low m⟩

end Sys2Proof.Machine
end


section
/-! Runs that never stop, the idle block, `Reset()`, and the morph that has nothing to do (60_exceptions.md rules R220,
R224 and R227; 70_reset_and_hazards.md rules R240 and R246). A step answers a next state with the storage invariants, so
a run of any length does. -/

namespace Sys2Proof.Machine

/-! ## Runs (R220, R224) -/

/-- A command only performs writes, and a list of writes always leaves a state. -/
theorem exec_eq_next (i : Instr) (s : State) : ∃ t, exec i s = .next t := by
  obtain ⟨ws, -, hexec⟩ := exec_performs s i
  exact ⟨perform ws s, hexec s.status⟩

theorem run_succ_of_step {M : Host.Core} {s t : M.State} (h : M.step s = .next t) (n : Nat) :
    M.run (n + 1) s = M.run n t := by
  rw [Host.Core.run, h]

theorem safeFor_succ_of_step {s t : State} (h : step s = .next t) {n : Nat} (ht : SafeFor n t) :
    SafeFor (n + 1) s := by
  have hrun : Sys2Proof.core.run (n + 1) s = Sys2Proof.core.run n t := run_succ_of_step (M := Sys2Proof.core) h n
  rwa [SafeFor, hrun]

theorem State.Wf.safeFor {s : State} (h : s.Wf) (n : Nat) : SafeFor n s := by
  induction n generalizing s with
  | zero => exact ⟨s, rfl, h⟩
  | succ n ih =>
    obtain ⟨t, hstep, ht⟩ := step_answersWf h
    exact safeFor_succ_of_step hstep (ih ht)

/-- Settles O12: no command answers anything but a next state, and the steps of a run keep the invariants. -/
theorem noRunEverStops : Obligations.NoRunEverStops := by
  unfold Obligations.NoRunEverStops
  exact ⟨exec_eq_next, fun _ n h => h.safeFor n⟩

/-! ## The idle block (R227) -/

theorem step_eq_next_self {s : State} (h : s.host = []) : step s = .next s := by
  simp only [step, h]

/-- Settles O9: with no move to make the step is the idle one. -/
theorem idleBlockKeepsAllState : Obligations.IdleBlockKeepsAllState := by
  unfold Obligations.IdleBlockKeepsAllState
  exact fun _ h => step_eq_next_self h

/-! ## `MORPH` of a buffer with itself (R246, R170) -/

/-- Between a sample and itself there is only that sample. -/
theorem morphBuffer_self (b : PcmBuffer) (num : Nat) {den : Nat} (hden : den ≠ 0) : morphBuffer b b num den = b := by
  have hsamples : (morphBuffer b b num den).s = b.s := by
    simp only [morphBuffer, List.zipWith_self, lerp_const hden, wrap32, BitVec.ofInt_toInt, List.map_id']
  calc morphBuffer b b num den = { b with s := (morphBuffer b b num den).s } := rfl
    _ = b := by rw [hsamples]

/-- Settles O41: the morph writes back the buffer it read. -/
theorem morphOfABufferWithItselfChangesNothing : Obligations.MorphOfABufferWithItselfChangesNothing := by
  unfold Obligations.MorphOfABufferWithItselfChangesNothing
  intro d num den s hready hden hle
  have hd : d.toNat < s.p.length := lt_p_length_of_ready hready (List.mem_cons_self ..)
  rw [exec_morph hden hle rfl rfl, morphBuffer_self _ _ hden, State.writeP_readP s hd]

/-! ## `Reset()` (R240, R37) -/

theorem step_reset {s : State} {rest : List HostMove} (h : s.host = .reset :: rest) :
    step s = .next (s.setHost rest).hostReset := step_eq_makeMove h

/-- Settles O58: the values `State.hostReset` writes are those of R37's table, and it writes no other field. -/
theorem resetMoveRestoresTheResetValues : Obligations.ResetMoveRestoresTheResetValues := by
  unfold Obligations.ResetMoveRestoresTheResetValues
  exact fun _ _ h => step_reset h

end Sys2Proof.Machine
end
